-- ==== Sys2Proof/Word.lean ====
section
/-! DEFINITION. The bit-vector types of the core: bytes, the two wider field widths, and byte sequences (R7, R19). -/

namespace Sys2Proof

/-- A byte: an unsigned integer in 0..255, bit 0 least significant (R7). -/
abbrev Byte := BitVec 8

/-- The 16-bit field width (`ctrl_err` and the three scaled 16-bit fields, R19). -/
abbrev Half := BitVec 16

/-- The 32-bit field width (`freq`, R19). -/
abbrev Word := BitVec 32

/-- A frame, or any byte sequence: index 0 is the byte that arrived first (R7, R30). -/
abbrev Frame := List Byte

end Sys2Proof
end

