-- ==== Sys2Proof/Config.lean ====
section
/-! DEFINITION. The named parameters of R4, R5 and R6 with the values this hardware takes, the constraints R6 puts on
them, and the open rendering function of R118. -/

namespace Sys2Proof

/-- `SENTINEL`, the header byte (R4). -/
def Config.sentinel : Byte := 0x54
/-- `MONITOR_TYPE`, the one recognized type byte (R4). -/
def Config.monitorType : Byte := 0xB3
/-- `CAP`, the accumulator's capacity in bytes (R4). -/
def Config.cap : Nat := 256
/-- `HDR`, the header overhead: sentinel, type, length (R4). -/
def Config.hdr : Nat := 3
/-- The frame offset of the type byte (R39). -/
def Config.offType : Nat := 1
/-- The frame offset of the length byte (R39). -/
def Config.offLen : Nat := 2
/-- `OFF_STATE` (R5), one byte. -/
def Config.offState : Nat := 3
/-- `OFF_FREQ` (R5), four bytes. -/
def Config.offFreq : Nat := 4
/-- `OFF_CTRLERR` (R5), one byte. -/
def Config.offCtrlErr : Nat := 8
/-- `OFF_DUTY` (R5), one byte. -/
def Config.offDuty : Nat := 9
/-- `OFF_VBRIDGE` (R5), two bytes. -/
def Config.offVbridge : Nat := 10
/-- `OFF_PRX` (R5), two bytes. -/
def Config.offPrx : Nat := 12
/-- `OFF_VIN` (R5), two bytes; offsets 14 and 15 are skipped (R116). -/
def Config.offVin : Nat := 16
/-- `DUTY_DIV` (R5). -/
def Config.dutyDiv : Nat := 100
/-- `MILLI_DIV` (R5). -/
def Config.milliDiv : Nat := 1000
/-- `MON_MIN_LEN`, the smallest frame that holds every decoded offset (R5). -/
def Config.monMinLen : Nat := 18
/-- `MON_MIN_N`, the length byte of such a frame (R5). -/
def Config.monMinN : Nat := 15

/-- `FRAC_RENDER` (R118): the map from an exact rational to what the snapshot sink sees. It is the identity for this
hardware; a model of another sink passes its own map to `Snapshot.renderWith` in its place. -/
def Config.fracRender (q : Rat) : Rat := q

/-- The constraints R6 puts on the parameters. -/
def Config.admissible : Bool :=
  Config.monitorType != Config.sentinel && decide (Config.hdr ≤ Config.cap)
    && decide (Config.offState + 1 ≤ Config.monMinLen) && decide (Config.offFreq + 4 ≤ Config.monMinLen)
    && decide (Config.offCtrlErr + 1 ≤ Config.monMinLen) && decide (Config.offDuty + 1 ≤ Config.monMinLen)
    && decide (Config.offVbridge + 2 ≤ Config.monMinLen) && decide (Config.offPrx + 2 ≤ Config.monMinLen)
    && decide (Config.offVin + 2 ≤ Config.monMinLen) && decide (Config.monMinN + Config.hdr = Config.monMinLen)

end Sys2Proof
end

