-- ==== Sys2Proof/Syntax.lean ====
section
/-! DEFINITION. The operations of the opcode table as one inductive: five Framer cases, three Decoder cases, seven field
extractions (R56, R57, R58). -/

namespace Sys2Proof

/-- One operation of the core, with the operands its rule names. -/
inductive Instr where
  /-- `F.SOF` (R71): the sentinel byte; it has no operand bits. -/
  | fSof
  /-- `F.NOISE` (R72): a byte outside any frame. -/
  | fNoise (b : Byte)
  /-- `F.APPEND` (R73): a byte that leaves the frame incomplete. -/
  | fAppend (b : Byte)
  /-- `F.COMPLETE` (R75): the byte that completes the frame. -/
  | fComplete (b : Byte)
  /-- `F.OVERFLOW` (R76): the byte that finds the buffer full; it is dropped. -/
  | fOverflow (b : Byte)
  /-- `D.MONITOR` (R93): a monitor frame long enough to decode. -/
  | dMonitor (f : Frame)
  /-- `D.MALFORMED` (R95, R96): an undersized frame. -/
  | dMalformed (f : Frame)
  /-- `D.UNKNOWN` (R92): a frame of another type. -/
  | dUnknown (f : Frame)
  /-- `X.STATE` (R107): operand `f[3]`. -/
  | xState (b : Byte)
  /-- `X.FREQ` (R108): operands `f[4], f[5], f[6], f[7]`, the first least significant. -/
  | xFreq (b0 b1 b2 b3 : Byte)
  /-- `X.CTRLERR` (R110): operand `f[8]`. -/
  | xCtrlErr (b : Byte)
  /-- `X.DUTY` (R112): operand `f[9]`. -/
  | xDuty (b : Byte)
  /-- `X.VBRIDGE` (R113): operands `f[10], f[11]`, low byte first. -/
  | xVbridge (lo hi : Byte)
  /-- `X.PRX` (R114): operands `f[12], f[13]`, low byte first. -/
  | xPrx (lo hi : Byte)
  /-- `X.VIN` (R115): operands `f[16], f[17]`, low byte first. -/
  | xVin (lo hi : Byte)
  deriving DecidableEq, Repr

/-- The seven decoded fields of the monitor message (R19, R40, R58). -/
inductive Field where
  | opState
  | freq
  | ctrlErr
  | duty
  | vbridge
  | prx
  | vin
  deriving DecidableEq, Repr

end Sys2Proof
end

