-- ==== Sys2Proof/WellFormed.lean ====
section
/-! DEFINITION. Which operand values an operation's row admits (the table's "constraint" column), and which frames the
Framer can deliver (R62, R79, R82). -/

namespace Sys2Proof

/-- The operand constraint of each row: a Framer byte other than `F.SOF`'s is not the sentinel (R56); a Decoder frame meets
its row's condition (R57); every byte value is legal in a decoded position (R93, R119). -/
def Instr.wf : Instr → Bool
  | .fSof => true
  | .fNoise b => b != Config.sentinel
  | .fAppend b => b != Config.sentinel
  | .fComplete b => b != Config.sentinel
  | .fOverflow b => b != Config.sentinel
  | .dMonitor f => f[Config.offType]? == some Config.monitorType && decide (Config.monMinLen ≤ f.length)
  | .dMalformed f =>
    decide (f.length < 2) || (f[Config.offType]? == some Config.monitorType && decide (f.length < Config.monMinLen))
  | .dUnknown f => decide (2 ≤ f.length) && f[Config.offType]? != some Config.monitorType
  | .xState _ => true
  | .xFreq _ _ _ _ => true
  | .xCtrlErr _ => true
  | .xDuty _ => true
  | .xVbridge _ _ => true
  | .xPrx _ _ => true
  | .xVin _ _ => true

/-- The frames the Framer can deliver: they begin with the sentinel and hold it nowhere else (R79), are as long as their
length byte says (R82), and fit the buffer (R81). -/
def deliverable (f : Frame) : Bool :=
  f[0]? == some Config.sentinel && (f.drop 1).all (· != Config.sentinel)
    && f[Config.offLen]?.any (fun n => f.length == n.toNat + Config.hdr) && decide (f.length ≤ Config.cap)

end Sys2Proof
end

