-- ==== Sys2Proof/Decode.lean ====
section
/-! DEFINITION. Selection of an operation from bytes, total and rejecting by name (R56, R57, R58), the reader of the FRAME
format (R51, R52, R62), and after them the encoder and the stream notation of R64. -/

namespace Sys2Proof

/-- Why bytes select no operation. No input byte is illegal (R63): these name missing bytes, byte sequences that are no
deliverable frame (R62), and a length cell that holds no value (R14). -/
inductive Reject where
  /-- There is no byte to read. -/
  | noByte
  /-- The byte list ends before the format does. -/
  | truncated
  /-- A FRAME does not begin with the sentinel (R51). -/
  | noHeader
  /-- A FRAME declares more bytes than the buffer holds (R62, R81). -/
  | tooLong
  /-- A FRAME holds the sentinel after index 0 (R62, R79). -/
  | sentinelInside
  /-- The completion test needs `BUF[2]` and the cell holds no value (R14); no state that meets R15 gives this. -/
  | lengthCellUnwritten
  deriving DecidableEq, Repr

/-- What of the accumulator steers the selection of a Framer operation (R77): `ACC`, `FILL`, and `BUF[2]` where it holds a
value. -/
structure FramerView where
  acc : Bool
  fill : Nat
  lenByte : Option Byte
  deriving DecidableEq, Repr

/-- The Framer's view in Idle (R78), the state of reset (R21). -/
def FramerView.idle : FramerView := { acc := false, fill := 0, lenByte := none }

/-- The format a byte list is read in (R50, R51, R58): one input byte in the light of the accumulator, a whole frame, or
the bytes of one field. -/
inductive Ctx where
  | byte (v : FramerView)
  | frame
  | field (x : Field)
  deriving DecidableEq, Repr

/-- The completion test of R74 on the fill length and `BUF[2]` after the append; `none` where it needs a cell that holds no
value. The sum does not wrap (R17). -/
def completionTest (fill : Nat) (lenByte : Option Byte) : Option Bool :=
  if fill < Config.hdr then some false else lenByte.map fun n => decide (n.toNat + Config.hdr ≤ fill)

/-- `BUF'[2]`, the length cell after `BUF[FILL] <- b` (R74). -/
def FramerView.lenByteAfter (v : FramerView) (b : Byte) : Option Byte :=
  if v.fill = Config.offLen then some b else v.lenByte

/-- The Framer operation a byte selects, tested in the order sentinel, `ACC`, capacity, completion (R56, R77, R141). -/
def selectFramer (v : FramerView) (b : Byte) : Except Reject Instr :=
  if b = Config.sentinel then .ok .fSof
  else if v.acc = false then .ok (.fNoise b)
  else if v.fill < Config.cap then
    match completionTest (v.fill + 1) (v.lenByteAfter b) with
    | none => .error .lengthCellUnwritten
    | some true => .ok (.fComplete b)
    | some false => .ok (.fAppend b)
  else .ok (.fOverflow b)

/-- The three outcomes of the Decoder's dispatch (R57). -/
inductive DecoderCase where
  | malformed
  | unknown
  | monitor
  deriving DecidableEq, Repr

/-- The Decoder's dispatch in the order length below 2, type, length below `MON_MIN_LEN` (R57, R90, R141). Neither `f[0]`
nor `f[2]` is consulted (R94). -/
def decoderCase (f : Frame) : DecoderCase :=
  if f.length < 2 then .malformed
  else if f[Config.offType]? ≠ some Config.monitorType then .unknown
  else if f.length < Config.monMinLen then .malformed
  else .monitor

/-- The Decoder operation a frame selects (R57). -/
def selectDecoder (f : Frame) : Instr :=
  match decoderCase f with
  | .malformed => .dMalformed f
  | .unknown => .dUnknown f
  | .monitor => .dMonitor f

/-- Reads one frame off a byte list: header, type, length N, then N payload bytes (R51, R52), refusing the encodings the
Framer can never deliver (R62). -/
def readFrame (bs : List Byte) : Except Reject (Frame × List Byte) :=
  match bs with
  | [] => .error .noByte
  | [_] => .error .truncated
  | [_, _] => .error .truncated
  | h :: t :: n :: rest =>
    if h ≠ Config.sentinel then .error .noHeader
    else if Config.cap < n.toNat + Config.hdr then .error .tooLong
    else if rest.length < n.toNat then .error .truncated
    else if (t :: n :: rest.take n.toNat).any (· == Config.sentinel) then .error .sentinelInside
    else .ok (h :: t :: n :: rest.take n.toNat, rest.drop n.toNat)

/-- The frame offset of a field (R5, R40). -/
def Field.offset : Field → Nat
  | .opState => Config.offState
  | .freq => Config.offFreq
  | .ctrlErr => Config.offCtrlErr
  | .duty => Config.offDuty
  | .vbridge => Config.offVbridge
  | .prx => Config.offPrx
  | .vin => Config.offVin

/-- Reads one field's bytes, as many as its width (R40), lowest offset first (R30, R31), as the extraction that takes them (R58). -/
def readField (x : Field) (bs : List Byte) : Except Reject (Instr × List Byte) :=
  match x, bs with
  | .opState, b :: rest => .ok (.xState b, rest)
  | .freq, b0 :: b1 :: b2 :: b3 :: rest => .ok (.xFreq b0 b1 b2 b3, rest)
  | .ctrlErr, b :: rest => .ok (.xCtrlErr b, rest)
  | .duty, b :: rest => .ok (.xDuty b, rest)
  | .vbridge, lo :: hi :: rest => .ok (.xVbridge lo hi, rest)
  | .prx, lo :: hi :: rest => .ok (.xPrx lo hi, rest)
  | .vin, lo :: hi :: rest => .ok (.xVin lo hi, rest)
  | _, _ => .error .truncated

/-- The extraction of a field from a whole frame: the bytes at its offset (R45, R58). -/
def fieldOf (x : Field) (f : Frame) : Except Reject Instr :=
  (readField x (f.drop x.offset)).map Prod.fst

/-- Decoding, total on every byte list in every format: the operation and the bytes left over, or a rejection by name. -/
def decode (c : Ctx) (bs : List Byte) : Except Reject (Instr × List Byte) :=
  match c with
  | .byte v =>
    match bs with
    | [] => .error .noByte
    | b :: rest => (selectFramer v b).map fun i => (i, rest)
  | .frame => (readFrame bs).map fun p => (selectDecoder p.1, p.2)
  | .field x => readField x bs

/-! The encoder, written from the same maps. -/

/-- The bytes of an operation: the input byte (R50), the frame (R51), or the field's bytes in frame order (R53). -/
def encode : Instr → List Byte
  | .fSof => [Config.sentinel]
  | .fNoise b => [b]
  | .fAppend b => [b]
  | .fComplete b => [b]
  | .fOverflow b => [b]
  | .dMonitor f => f
  | .dMalformed f => f
  | .dUnknown f => f
  | .xState b => [b]
  | .xFreq b0 b1 b2 b3 => [b0, b1, b2, b3]
  | .xCtrlErr b => [b]
  | .xDuty b => [b]
  | .xVbridge lo hi => [lo, hi]
  | .xPrx lo hi => [lo, hi]
  | .xVin lo hi => [lo, hi]

/-- The format and accumulator condition under which a row is the one selected: R56's condition column for a Framer byte, a
deliverable frame for a Decoder row (R62), the field's own place for an extraction. -/
def admits (c : Ctx) (i : Instr) : Bool :=
  match i with
  | .fSof => match c with | .byte _ => true | .frame => false | .field _ => false
  | .fNoise _ => match c with | .byte v => !v.acc | .frame => false | .field _ => false
  | .fAppend b =>
    match c with
    | .byte v => v.acc && decide (v.fill < Config.cap) && completionTest (v.fill + 1) (v.lenByteAfter b) == some false
    | .frame => false
    | .field _ => false
  | .fComplete b =>
    match c with
    | .byte v => v.acc && decide (v.fill < Config.cap) && completionTest (v.fill + 1) (v.lenByteAfter b) == some true
    | .frame => false
    | .field _ => false
  | .fOverflow _ =>
    match c with | .byte v => v.acc && decide (Config.cap ≤ v.fill) | .frame => false | .field _ => false
  | .dMonitor f => match c with | .byte _ => false | .frame => deliverable f | .field _ => false
  | .dMalformed f => match c with | .byte _ => false | .frame => deliverable f | .field _ => false
  | .dUnknown f => match c with | .byte _ => false | .frame => deliverable f | .field _ => false
  | .xState _ => c == .field .opState
  | .xFreq _ _ _ _ => c == .field .freq
  | .xCtrlErr _ => c == .field .ctrlErr
  | .xDuty _ => c == .field .duty
  | .xVbridge _ _ => c == .field .vbridge
  | .xPrx _ _ => c == .field .prx
  | .xVin _ _ => c == .field .vin

/-- `le16` of R64: the two bytes `v mod 256, v div 256`. -/
def le16 (v : Half) : List Byte := [BitVec.ofNat 8 (v.toNat % 256), BitVec.ofNat 8 (v.toNat / 256)]

/-- `le32` of R64: four bytes, least significant first. -/
def le32 (v : Word) : List Byte :=
  [BitVec.ofNat 8 (v.toNat % 256), BitVec.ofNat 8 (v.toNat / 2 ^ 8 % 256), BitVec.ofNat 8 (v.toNat / 2 ^ 16 % 256),
    BitVec.ofNat 8 (v.toNat / 2 ^ 24)]

/-- `FRAME(type, payload)` of R64: `54 type len(payload) payload...`. -/
def frameOf (type : Byte) (payload : List Byte) : Frame :=
  Config.sentinel :: type :: BitVec.ofNat 8 payload.length :: payload

/-- `MONITOR(...)` of R64: the monitor frame with length byte 0x0F. -/
def monitorOf (opState : Byte) (freq : Word) (ctrlErr dutyRaw : Byte) (vbridgeRaw prxRaw : Half) (skip14 skip15 : Byte)
    (vinRaw : Half) : Frame :=
  frameOf Config.monitorType
    ([opState] ++ le32 freq ++ [ctrlErr, dutyRaw] ++ le16 vbridgeRaw ++ le16 prxRaw ++ [skip14, skip15] ++ le16 vinRaw)

/-! The opcode table's words, for the host. -/

/-- The low `k` bytes of a number, most significant first: R51 writes a frame's header as a bit pattern with `frame[0]`
first, and the table's FRAME rows number it so (match 0x54B300, log entry 7). -/
def bigEndianBytes : Nat → Nat → List Byte
  | 0, _ => []
  | k + 1, w => BitVec.ofNat 8 (w / 2 ^ (8 * k)) :: bigEndianBytes k w

/-- How many bytes of zero follow a table word's own bytes: the payload the length byte declares, or a zero length byte where
the word ends before it. -/
def tablePadding (hs : List Byte) : Nat :=
  match hs[Config.offLen]? with
  | some n => n.toNat
  | none => 1

/-- The bytes a table word stands for: one byte for a BYTE row; for a FRAME row the word's bytes, then bytes of zero. -/
def tableBytes (nbits w : Nat) : List Byte :=
  if nbits ≤ 8 then [BitVec.ofNat 8 w]
  else bigEndianBytes (nbits / 8) w ++ List.replicate (tablePadding (bigEndianBytes (nbits / 8) w)) 0

/-- The format of a table word of that many bits, a byte being read in Idle, the accumulator state after reset (log entry 7). -/
def tableCtx (nbits : Nat) : Ctx :=
  if nbits ≤ 8 then .byte FramerView.idle else .frame

/-- The instruction the decoder reads from a table word. -/
def decodeTableWord (nbits w : Nat) : Option Instr :=
  match decode (tableCtx nbits) (tableBytes nbits w) with
  | .ok p => some p.1
  | .error _ => none

end Sys2Proof
end

