-- ==== Sys2Proof/Machine/State.lean ====
section
/-! DEFINITION. The state of the core as plain data (R10 to R22), the outputs of its last step (R126), the reasons a step
could stop, and the state after reset (R155). -/

namespace Sys2Proof.Machine

/-- The cells of `BUF` that hold a value, as (index, byte) pairs with indexes strictly rising. A cell that is not listed
holds no value (R14; log entry 2). -/
abbrev Memory := List Host.Cell

/-- The telemetry snapshot `SNAP`: the seven raw fields (R18, R19). -/
structure Snapshot where
  /-- `SNAP.op_state`. -/
  opState : Byte
  /-- `SNAP.freq`. -/
  freq : Word
  /-- `SNAP.ctrl_err`. -/
  ctrlErr : Half
  /-- `SNAP.duty_raw`. -/
  dutyRaw : Byte
  /-- `SNAP.vbridge_raw`. -/
  vbridgeRaw : Half
  /-- `SNAP.prx_raw`. -/
  prxRaw : Half
  /-- `SNAP.vin_raw`. -/
  vinRaw : Half
  deriving DecidableEq, Repr

/-- The record `s` that `decode` builds field by field before it is stored (R90, R93): a field is absent until its
extraction has run (log entry 6). -/
structure Building where
  opState : Option Byte
  freq : Option Word
  ctrlErr : Option Half
  dutyRaw : Option Byte
  vbridgeRaw : Option Half
  prxRaw : Option Half
  vinRaw : Option Half
  deriving DecidableEq, Repr

/-- The record before any extraction has run. -/
def Building.empty : Building :=
  { opState := none, freq := none, ctrlErr := none, dutyRaw := none, vbridgeRaw := none, prxRaw := none, vinRaw := none }

/-- The frame event of a step (R70, R126). -/
inductive FrameEvent where
  | none
  | frameReady (frame : Frame)
  | bufferOverflow (discarded : List Byte)
  deriving DecidableEq, Repr

/-- The decode status of a step (R90, R126). -/
inductive DecodeStatus where
  | noFrame
  | updated (snapshot : Snapshot)
  | ignored
  | malformed
  deriving DecidableEq, Repr

/-- A diagnostic output (R127, R128, R129). -/
inductive Diagnostic where
  | noise (b : Byte)
  | overflowReport (count : Nat) (bytes : List Byte)
  | decodeError (frame : Frame)
  deriving DecidableEq, Repr

/-- The outputs of one step (R126), the diagnostics in the order they were emitted. -/
structure StepOut where
  event : FrameEvent
  status : DecodeStatus
  diag : List Diagnostic
  deriving DecidableEq, Repr

/-- No event, no decode, no diagnostic. -/
def StepOut.quiet : StepOut := { event := .none, status := .noFrame, diag := [] }

/-- The two errors of the taxonomy that are reported (R135, R137, R138). -/
inductive CoreError where
  | bufferOverflow (discarded : List Byte)
  | malformedFrame (frame : Frame)
  deriving DecidableEq, Repr

/-- What the host gives the core, one at a time: the next byte (R9, R132), or the reset operation (R156). -/
inductive HostInput where
  | byte (b : Byte)
  | reset
  deriving DecidableEq, Repr

/-- The state of the core. -/
structure State where
  /-- `BUF` (R11). -/
  buf : Memory
  /-- `FILL` (R12). -/
  fill : Nat
  /-- `ACC` (R13). -/
  acc : Bool
  /-- `SNAP` with `SNAP_VALID`: absent until the first successful decode (R18, R20, R22; log entry 3). -/
  snap : Option Snapshot
  /-- The record a decode is building; empty between steps (R90; log entry 6). -/
  building : Building
  /-- The bytes and resets the host has still to deliver, oldest first (R132; log entry 4). -/
  input : List HostInput
  /-- The outputs of the last step (R8, R126; log entry 5). -/
  out : StepOut
  deriving DecidableEq, Repr

/-- Accesses the manual says the hardware never makes. None is raised by a step from a state that meets R15. -/
inductive Fault where
  /-- A store to `BUF` at an index that does not exist (R11, R84): raised by `State.store`. Safe. -/
  | bufferOutOfRange
  /-- A read of a `BUF` cell that holds no value (R14): raised by the frame copy, the discard copy, and by the step when
  the completion test needs such a cell. Safe. -/
  | cellUnwritten
  /-- A Decoder load at an offset the frame does not have (R34): raised by the field loads. Safe. -/
  | frameOutOfRange
  /-- A snapshot store with a field missing (R18, R36): raised by `State.commitSnapshot`. Safe. -/
  | snapshotIncomplete
  deriving DecidableEq, Repr

/-- Why an instruction has no meaning. -/
inductive Refusal where
  /-- The instruction is not modelled yet: raised by `exec`'s arm. Safe. No arm uses it in this model. -/
  | notModelled (mnemonic : String)
  deriving DecidableEq, Repr

/-- What an operation answers. -/
abbrev Result := Host.Outcome State Fault Refusal

/-- The state right after reset (R21, R22, R155), with nothing offered by the host. -/
def State.reset : State :=
  { buf := [], fill := 0, acc := false, snap := none, building := Building.empty, input := [], out := StepOut.quiet }

end Sys2Proof.Machine
end

