-- ==== Sys2Proof/Machine/Ops.lean ====
section
/-! DEFINITION. The named operations over the buffer, the accumulator, the snapshot and the outputs, the one shared
operation that reports an error (R142), and the reset operation (R156). -/

namespace Sys2Proof.Machine

/-- Sequencing: go on with the next state, or keep the stop. -/
def andThen (o : Result) (k : State → Result) : Result :=
  match o with
  | .next s => k s
  | .fault r => .fault r
  | .refused r => .refused r

/-! The buffer. -/

/-- The byte a cell holds, `none` where it holds no value (R14). -/
def Memory.read : Memory → Nat → Option Byte
  | [], _ => none
  | (a, v) :: m, i => if a = i then some v else Memory.read m i

/-- `BUF[i] <- v`, keeping the indexes strictly rising. -/
def Memory.write : Memory → Nat → Byte → Memory
  | [], i, v => [(i, v)]
  | (a, w) :: m, i, v =>
    if i < a then (i, v) :: (a, w) :: m
    else if i = a then (i, v) :: m
    else (a, w) :: Memory.write m i v

/-- The canonical form: indexes strictly rising, each a cell that exists (R11). An unlisted cell has no value, so no listed
byte can equal it. -/
def Memory.wf (m : Memory) : Bool :=
  decide (m.Pairwise fun x y => x.1 < y.1) && m.all fun c => decide (c.1 < Config.cap)

/-- The bytes of `n` cells from index `a` on, `none` if one of them holds no value. -/
def Memory.readFrom (m : Memory) (a : Nat) : Nat → Option (List Byte)
  | 0 => some []
  | n + 1 =>
    match m.read a with
    | none => none
    | some v => (m.readFrom (a + 1) n).map (v :: ·)

/-- The cells 0, 1, ... that hold the bytes of a list. -/
def Memory.ofBytes (bs : List Byte) (a : Nat) : Memory :=
  match bs with
  | [] => []
  | b :: rest => (a, b) :: Memory.ofBytes rest (a + 1)

/-! The accumulator. -/

/-- `BUF[i] <- v` on the state; the buffer has no cell at `CAP` or above (R11, R84). -/
def State.store (i : Nat) (v : Byte) (s : State) : Result :=
  if i < Config.cap then .next { s with buf := s.buf.write i v } else .fault .bufferOutOfRange

/-- The append store with its post-increment: `BUF[FILL] <- b; FILL <- FILL + 1` (R45, R73). -/
def State.appendByte (b : Byte) (s : State) : Result :=
  andThen (s.store s.fill b) fun s => .next { s with fill := s.fill + 1 }

/-- "Clear the accumulator": `FILL <- 0`, after which no cell holds a value (R14, log entry 2). -/
def State.clearAccumulator (s : State) : State := { s with buf := [], fill := 0 }

/-- "Reset accumulator state": clear and `ACC <- false` (R14, R21). -/
def State.toIdle (s : State) : State := { s.clearAccumulator with acc := false }

/-- What of the state steers the Framer's selection (R77). -/
def State.view (s : State) : FramerView := { acc := s.acc, fill := s.fill, lenByte := s.buf.read Config.offLen }

/-- The Framer operation a byte selects in a state (R56). -/
def State.select (s : State) (b : Byte) : Except Reject Instr := selectFramer s.view b

/-! Outputs. -/

/-- A Framer operation begins the step's outputs: its event, no decode yet, its diagnostics (R125, R126). -/
def State.beginOut (e : FrameEvent) (ds : List Diagnostic) (s : State) : State :=
  { s with out := { event := e, status := .noFrame, diag := ds } }

/-- The Decoder's status for the step (R90). -/
def State.setStatus (d : DecodeStatus) (s : State) : State := { s with out := { s.out with status := d } }

/-- `emit`: one more diagnostic output (R7). -/
def State.emit (d : Diagnostic) (s : State) : State := { s with out := { s.out with diag := s.out.diag ++ [d] } }

/-! Errors. -/

/-- Reporting an error, the hardware's whole exception entry (R142): nothing is saved and control goes nowhere; the output
record is produced, and an overflow resets the accumulator (R137), while a malformed frame writes no state (R138: its
accumulator reset is the completion's). There is no return operation (R144). -/
def State.reportError (e : CoreError) (s : State) : State :=
  match e with
  | .bufferOverflow d => s.toIdle.beginOut (.bufferOverflow d) [.overflowReport d.length d]
  | .malformedFrame f => (s.emit (.decodeError f)).setStatus .malformed

/-! The snapshot. -/

/-- The complete record, `none` while a field is missing. -/
def Building.complete (r : Building) : Option Snapshot :=
  match r.opState, r.freq, r.ctrlErr, r.dutyRaw, r.vbridgeRaw, r.prxRaw, r.vinRaw with
  | some a, some b, some c, some d, some e, some f, some g =>
    some { opState := a, freq := b, ctrlErr := c, dutyRaw := d, vbridgeRaw := e, prxRaw := f, vinRaw := g }
  | _, _, _, _, _, _, _ => none

/-- A decode starts from a record with no field (R90). -/
def State.beginRecord (s : State) : State := { s with building := Building.empty }

/-- `SNAP <- s; SNAP_VALID <- true; return Updated(s)` (R93): all seven fields at once or none (R36). -/
def State.commitSnapshot (s : State) : Result :=
  match s.building.complete with
  | none => .fault .snapshotIncomplete
  | some r => .next ({ s with snap := some r, building := Building.empty }.setStatus (.updated r))

/-! Reset. -/

/-- The reset operation (R155, R156): the state of reset whatever the state before, with no output. What the host has still
to deliver is outside the core and stays. -/
def State.applyReset (s : State) : State := { State.reset with input := s.input }

end Sys2Proof.Machine
end

