-- ==== Sys2Proof/Machine/Operands.lean ====
section
/-! DEFINITION. The operand forms of the Decoder: loads from a frame (R34, R45), little-endian composition (R105), bit
selection (R106), widening (R109) and the exact scaling of the fractional fields (R111, R118). -/

namespace Sys2Proof.Machine

/-- `le(s) = s[0] + 2^8 * s[1] + ...`, a natural number (R105). -/
def le : List Byte → Nat
  | [] => 0
  | b :: rest => b.toNat + 2 ^ 8 * le rest

/-- `MemRead(off, n)` on a frame (R7, R105): `le(f[off .. off+n))`, `none` where the frame does not have those bytes. -/
def memRead (f : Frame) (off n : Nat) : Option Nat :=
  if off + n ≤ f.length then some (le ((f.drop off).take n)) else none

/-- A two-byte field, low byte first (R31). -/
def compose16 (lo hi : Byte) : Half := BitVec.ofNat 16 (le [lo, hi])

/-- The four-byte field, low byte first (R31). -/
def compose32 (b0 b1 b2 b3 : Byte) : Word := BitVec.ofNat 32 (le [b0, b1, b2, b3])

/-- `zext_16` (R109). -/
def zext16 (b : Byte) : Half := b.setWidth 16

/-- One byte load at a constant frame offset (R45); a load past the end is never given a value (R34). -/
def loadByte (f : Frame) (off : Nat) (k : Byte → Result) : Result :=
  match f[off]? with
  | some b => k b
  | none => .fault .frameOutOfRange

/-- A scaled field's architected value: the exact quotient of its raw integer by a decimal constant (R111), rendered by
`FRAC_RENDER` (R118). -/
def scaled (raw divisor : Nat) : Rat := Config.fracRender ((raw : Rat) / (divisor : Rat))

/-- The duty cycle, `duty_raw / 100` (R112). -/
def Snapshot.duty (r : Snapshot) : Rat := scaled r.dutyRaw.toNat Config.dutyDiv

/-- The bridge voltage, `vbridge_raw / 1000` (R113). -/
def Snapshot.vbridge (r : Snapshot) : Rat := scaled r.vbridgeRaw.toNat Config.milliDiv

/-- The received power, `prx_raw / 1000` (R114). -/
def Snapshot.prx (r : Snapshot) : Rat := scaled r.prxRaw.toNat Config.milliDiv

/-- The input voltage, `vin_raw / 1000` (R115). -/
def Snapshot.vin (r : Snapshot) : Rat := scaled r.vinRaw.toNat Config.milliDiv

/-- The four scaled fields (duty, vbridge, prx, vin) as a sink with a rendering of its own sees them (R118): that rendering
is applied to the exact quotient alone. -/
def Snapshot.renderWith {α : Type} (render : Rat → α) (r : Snapshot) : α × α × α × α :=
  (render ((r.dutyRaw.toNat : Rat) / (Config.dutyDiv : Rat)), render ((r.vbridgeRaw.toNat : Rat) / (Config.milliDiv : Rat)),
    render ((r.prxRaw.toNat : Rat) / (Config.milliDiv : Rat)), render ((r.vinRaw.toNat : Rat) / (Config.milliDiv : Rat)))

end Sys2Proof.Machine
end

