-- ==== Sys2Proof/Machine/Fields.lean ====
section
/-! DEFINITION. The meanings of the seven field extractions (R107 to R115). Each sets its field of the record that `decode`
builds; the snapshot itself is stored by `D.MONITOR` alone (R18, R36; log entry 6). -/

namespace Sys2Proof.Machine

/-- `X.STATE` (R107): `op_state = f[3]`, verbatim. -/
def execXState (b : Byte) (s : State) : Result :=
  .next { s with building := { s.building with opState := some b } }

/-- `X.FREQ` (R108): `freq = f[4] + 2^8 f[5] + 2^16 f[6] + 2^24 f[7]`. -/
def execXFreq (b0 b1 b2 b3 : Byte) (s : State) : Result :=
  .next { s with building := { s.building with freq := some (compose32 b0 b1 b2 b3) } }

/-- `X.CTRLERR` (R110): `ctrl_err = zext_16(f[8])`. -/
def execXCtrlErr (b : Byte) (s : State) : Result :=
  .next { s with building := { s.building with ctrlErr := some (zext16 b) } }

/-- `X.DUTY` (R112): `duty_raw = f[9]`; the value is `Snapshot.duty`. -/
def execXDuty (b : Byte) (s : State) : Result :=
  .next { s with building := { s.building with dutyRaw := some b } }

/-- `X.VBRIDGE` (R113): `vbridge_raw = f[10] + 2^8 f[11]`; the value is `Snapshot.vbridge`. -/
def execXVbridge (lo hi : Byte) (s : State) : Result :=
  .next { s with building := { s.building with vbridgeRaw := some (compose16 lo hi) } }

/-- `X.PRX` (R114): `prx_raw = f[12] + 2^8 f[13]`; the value is `Snapshot.prx`. -/
def execXPrx (lo hi : Byte) (s : State) : Result :=
  .next { s with building := { s.building with prxRaw := some (compose16 lo hi) } }

/-- `X.VIN` (R115): `vin_raw = f[16] + 2^8 f[17]`; the value is `Snapshot.vin`. -/
def execXVin (lo hi : Byte) (s : State) : Result :=
  .next { s with building := { s.building with vinRaw := some (compose16 lo hi) } }

end Sys2Proof.Machine
end

