-- ==== Sys2Proof/Machine/Decoder.lean ====
section
/-! DEFINITION. The meanings of the three Decoder operations (R92, R93, R95) and the dispatch between them (R90). -/

namespace Sys2Proof.Machine

/-- The field loads of R45 and the seven extractions, all from one frame (R93); offsets 14 and 15 are not read (R116). -/
def extractAll (f : Frame) (s : State) : Result :=
  andThen (loadByte f Config.offState fun b => execXState b s) fun s =>
  andThen (loadByte f Config.offFreq fun b0 => loadByte f (Config.offFreq + 1) fun b1 =>
    loadByte f (Config.offFreq + 2) fun b2 => loadByte f (Config.offFreq + 3) fun b3 => execXFreq b0 b1 b2 b3 s) fun s =>
  andThen (loadByte f Config.offCtrlErr fun b => execXCtrlErr b s) fun s =>
  andThen (loadByte f Config.offDuty fun b => execXDuty b s) fun s =>
  andThen (loadByte f Config.offVbridge fun lo => loadByte f (Config.offVbridge + 1) fun hi => execXVbridge lo hi s) fun s =>
  andThen (loadByte f Config.offPrx fun lo => loadByte f (Config.offPrx + 1) fun hi => execXPrx lo hi s) fun s =>
  loadByte f Config.offVin fun lo => loadByte f (Config.offVin + 1) fun hi => execXVin lo hi s

/-- `D.MONITOR` (R93): compute the seven fields, then `SNAP <- s; SNAP_VALID <- true`, status `Updated(s)`. -/
def execDMonitor (f : Frame) (s : State) : Result :=
  andThen (extractAll f s.beginRecord) State.commitSnapshot

/-- `D.MALFORMED` (R95): report `DecodeError(f)`, status `Malformed`, no state written. -/
def execDMalformed (f : Frame) (s : State) : Result :=
  .next (s.reportError (.malformedFrame f))

/-- `D.UNKNOWN` (R92): status `Ignored`, no state written, no diagnostic; the frame's bytes are not looked at. -/
def execDUnknown (_f : Frame) (s : State) : Result :=
  .next (s.setStatus .ignored)

/-- `decode(f)` (R90): the operation the frame selects (R57). -/
def runDecoder (f : Frame) (s : State) : Result :=
  match decoderCase f with
  | .malformed => execDMalformed f s
  | .unknown => execDUnknown f s
  | .monitor => execDMonitor f s

end Sys2Proof.Machine
end

