-- ==== Sys2Proof/Machine/Flags.lean ====
section
/-! DEFINITION. The flags of the core, `ACC` and `SNAP_VALID`, and the length the completion test compares with (R17). -/

namespace Sys2Proof.Machine

/-- `SNAP_VALID` (R20): whether the optional record of R22 is present. -/
def State.snapValid (s : State) : Bool := s.snap.isSome

/-- `ACC <- true` (R71). -/
def State.setAcc (s : State) : State := { s with acc := true }

/-- `expectedLength = BUF[2] + 3`, without wrap-around, where `BUF[2]` holds a value (R17). -/
def State.expectedLength (s : State) : Option Nat := (s.buf.read Config.offLen).map fun n => n.toNat + Config.hdr

end Sys2Proof.Machine
end

