-- ==== Sys2Proof/Machine/Framer.lean ====
section
/-! DEFINITION. The meanings of the five Framer operations (R71 to R76). Each begins the outputs of its step; `F.COMPLETE`
runs the Decoder in the same step (R125). -/

namespace Sys2Proof.Machine

/-- `F.SOF` (R71): `FILL <- 0; BUF[0] <- 0x54; FILL <- 1; ACC <- true`, event `None`, nothing reported. -/
def execFSof (s : State) : Result :=
  andThen (s.clearAccumulator.appendByte Config.sentinel) fun s => .next (s.setAcc.beginOut .none [])

/-- `F.NOISE` (R72): output `Noise(b)`, no state written, event `None`. -/
def execFNoise (b : Byte) (s : State) : Result :=
  .next (s.beginOut .none [.noise b])

/-- `F.APPEND` (R73): `BUF[FILL] <- b; FILL <- FILL + 1`, event `None`. -/
def execFAppend (b : Byte) (s : State) : Result :=
  andThen (s.appendByte b) fun s => .next (s.beginOut .none [])

/-- `F.COMPLETE` (R75): append, copy the frame, reset the accumulator, event `FrameReady(frame)`, then `decode(frame)` in
the same step (R125). -/
def execFComplete (b : Byte) (s : State) : Result :=
  andThen (s.appendByte b) fun s =>
    match s.buf.readFrom 0 s.fill with
    | none => .fault .cellUnwritten
    | some f => runDecoder f (s.toIdle.beginOut (.frameReady f) [])

/-- `F.OVERFLOW` (R76): the discarded bytes are `BUF[0..CAP)`, the accumulator is reset, the overflow is reported; the input
byte is dropped. -/
def execFOverflow (_b : Byte) (s : State) : Result :=
  match s.buf.readFrom 0 Config.cap with
  | none => .fault .cellUnwritten
  | some d => .next (s.reportError (.bufferOverflow d))

end Sys2Proof.Machine
end

