-- ==== Sys2Proof/Machine/Dispatch.lean ====
section
/-! DEFINITION. One arm per operation of the opcode table. -/

namespace Sys2Proof.Machine

def exec (i : Instr) (s : State) : Host.Outcome State Fault Refusal :=
  match i with
  | .fSof => Sys2Proof.Machine.execFSof s
  | .fNoise b => Sys2Proof.Machine.execFNoise b s
  | .fAppend b => Sys2Proof.Machine.execFAppend b s
  | .fComplete b => Sys2Proof.Machine.execFComplete b s
  | .fOverflow b => Sys2Proof.Machine.execFOverflow b s
  | .dMonitor f => Sys2Proof.Machine.execDMonitor f s
  | .dMalformed f => Sys2Proof.Machine.execDMalformed f s
  | .dUnknown f => Sys2Proof.Machine.execDUnknown f s
  | .xState b => Sys2Proof.Machine.execXState b s
  | .xFreq b0 b1 b2 b3 => Sys2Proof.Machine.execXFreq b0 b1 b2 b3 s
  | .xCtrlErr b => Sys2Proof.Machine.execXCtrlErr b s
  | .xDuty b => Sys2Proof.Machine.execXDuty b s
  | .xVbridge lo hi => Sys2Proof.Machine.execXVbridge lo hi s
  | .xPrx lo hi => Sys2Proof.Machine.execXPrx lo hi s
  | .xVin lo hi => Sys2Proof.Machine.execXVin lo hi s

end Sys2Proof.Machine
end

