-- ==== Sys2Proof/Machine/Fetch.lean ====
section
/-! DEFINITION. Taking the host's next input, and placing a table word where the next step fetches it (log entry 7). -/

namespace Sys2Proof.Machine

/-- The state once the head of the input has been taken. -/
def State.takeInput (s : State) : State := { s with input := s.input.tail }

/-- A byte is the next input. -/
def State.offerByte (b : Byte) (s : State) : State := { s with input := .byte b :: s.input }

/-- Bytes are the next inputs, in order. -/
def State.offerBytes (bs : List Byte) (s : State) : State := { s with input := bs.map HostInput.byte ++ s.input }

/-- The accumulator holds all of a frame but its last byte, and that byte is the next input: the very next step completes
the frame and decodes it (R75, R125). -/
def State.stageFrame (f : Frame) (s : State) : State :=
  match f.getLast? with
  | none => s
  | some b => { s with buf := Memory.ofBytes f.dropLast 0, fill := f.dropLast.length, acc := true }.offerByte b

/-- Places a table word: a BYTE row's byte is offered next, in Idle unless it is the sentinel (which starts a frame in any
state, R71), since in Idle it selects what `decodeTableWord` reads; a FRAME row's frame is staged; bytes the decoder rejects are offered
as they are. -/
def State.placeTableWord (s : State) (nbits w : Nat) : State :=
  if nbits ≤ 8 then
    let b : Byte := BitVec.ofNat 8 w
    if b = Config.sentinel then s.offerByte b else s.toIdle.offerByte b
  else
    match readFrame (tableBytes nbits w) with
    | .ok p => s.stageFrame p.1
    | .error _ => s.offerBytes (bigEndianBytes (nbits / 8) w)

end Sys2Proof.Machine
end

