-- ==== Sys2Proof/Machine/Feed.lean ====
section
/-! DEFINITION. What the core does with each of the host's inputs: a byte, the reset operation, or none yet. -/

namespace Sys2Proof.Machine

/-- `step(b)` (R125): the byte selects its Framer operation in the light of the accumulator (R56) and that operation runs, the
Decoder with it where a frame completes. -/
def takeByte (b : Byte) (s : State) : Result :=
  match s.select b with
  | .ok i => exec i s
  | .error _ => .fault .cellUnwritten

/-- The reset operation between two steps (R156). -/
def takeReset (s : State) : Result := .next s.applyReset

/-- With no byte offered the core holds its state (R83, R150; log entry 4). -/
def awaitInput (s : State) : Result := .next s

end Sys2Proof.Machine
end

