-- ==== Sys2Proof/Machine/Step.lean ====
section
/-! DEFINITION. One step: the host's next input is taken (R8, R125, R156). -/

namespace Sys2Proof.Machine

/-- A step: a byte is processed (R125), a reset is applied (R156), and with nothing offered the core waits (R83). -/
def step (s : State) : Host.Outcome State Fault Refusal :=
  match s.input with
  | [] => awaitInput s
  | .reset :: _ => takeReset s.takeInput
  | .byte b :: _ => takeByte b s.takeInput

/-- `s` with a table word placed so that the very next step runs it (log entry 7). -/
def State.withFetchWord (s : State) (nbits w : Nat) : State := s.placeTableWord nbits w

end Sys2Proof.Machine
end

