-- ==== Sys2Proof/Machine/Interface.lean ====
section
/-! DEFINITION. The informative signal view of a step's outputs (R133) with the codes R139 assigns. No rule depends on it. -/

namespace Sys2Proof.Machine

/-- `ev_code` (R139). -/
def FrameEvent.code : FrameEvent → BitVec 2
  | .none => 0
  | .frameReady _ => 1
  | .bufferOverflow _ => 2

/-- `ds_code` (R139). -/
def DecodeStatus.code : DecodeStatus → BitVec 2
  | .noFrame => 0
  | .updated _ => 1
  | .ignored => 2
  | .malformed => 3

/-- The bytes an event carries: the frame, the discarded bytes, or none (R126). -/
def FrameEvent.bytes : FrameEvent → List Byte
  | .none => []
  | .frameReady f => f
  | .bufferOverflow d => d

/-- The byte of a `Noise` output, where there is one (R127). -/
def noiseByte : List Diagnostic → Option Byte
  | [] => none
  | .noise b :: _ => some b
  | .overflowReport _ _ :: rest => noiseByte rest
  | .decodeError _ :: rest => noiseByte rest

/-- The output signals of R133; `noise` is `noise_valid` with `noise_byte`, `snap` is `snap_valid` with the seven fields, and
`frameData` lists the bytes at indexes below `frame_len`. -/
structure Signals where
  evCode : BitVec 2
  frameLen : BitVec 9
  frameData : List Byte
  noise : Option Byte
  dsCode : BitVec 2
  snap : Option Snapshot
  deriving DecidableEq, Repr

/-- The signals after a step (R133). -/
def State.signals (s : State) : Signals :=
  { evCode := s.out.event.code
    frameLen := BitVec.ofNat 9 s.out.event.bytes.length
    frameData := s.out.event.bytes
    noise := noiseByte s.out.diag
    dsCode := s.out.status.code
    snap := s.snap }

end Sys2Proof.Machine
end

