-- ==== Sys2Proof/Safety.lean ====
section
/-! DEFINITION. What claims are stated in terms of: the invariant of R15, equality of accumulators (R14), the step a byte
takes, and the trace of a run (R65, R131). -/

namespace Sys2Proof.Machine

/-- The state invariant: R15's I-a to I-e, the buffer holding exactly the cells below `FILL` (R14), the snapshot's
`ctrl_err` zero-extended (R19, R110), and no decode in progress between steps (R25). I-f follows. -/
structure State.Inv (s : State) : Prop where
  /-- I-a. -/
  fill_le : s.fill ≤ Config.cap
  /-- I-b. -/
  idle_iff : s.acc = false ↔ s.fill = 0
  /-- I-c. -/
  header : s.acc = true → s.buf.read 0 = some Config.sentinel
  /-- I-d. -/
  no_sentinel : ∀ i, 1 ≤ i → s.buf.read i ≠ some Config.sentinel
  /-- I-e. -/
  incomplete : s.acc = true → Config.hdr ≤ s.fill → ∀ n, s.expectedLength = some n → s.fill < n
  /-- `BUF[0..FILL)` holds values and no other cell does (R14). -/
  cells : s.buf.map Prod.fst = List.range s.fill
  /-- R19, R110: `ctrl_err` is 0..255. -/
  ctrl_err : ∀ r, s.snap = some r → r.ctrlErr.toNat < 256
  /-- R25, R125: nothing of a decode outlives its step. -/
  no_record : s.building = Building.empty

/-- Equality of accumulators (R14): `ACC`, `FILL` and the prefix `BUF[0..FILL)`. -/
def State.sameAccumulator (s t : State) : Prop :=
  s.acc = t.acc ∧ s.fill = t.fill ∧ ∀ i, i < s.fill → s.buf.read i = t.buf.read i

/-- "The initial (empty, not-accumulating) state" of the accumulator (R21). -/
def State.accumulatorInitial (s : State) : Prop := s.sameAccumulator State.reset

/-- The state with a byte as its only pending input. -/
def State.given (b : Byte) (s : State) : State := { s with input := [.byte b] }

/-- The state with a byte list as its only pending input (R131: a run ends when a given finite list is exhausted). -/
def State.givenAll (bs : List Byte) (s : State) : State := { s with input := bs.map HostInput.byte }

/-- An entry of the trace: the operation a byte selected and what its step produced (R65). -/
structure TraceEntry where
  op : Instr
  out : StepOut
  deriving DecidableEq, Repr

/-- The steps of a byte list, one per byte in order, and their trace (R65, R131); `none` if a step stops. -/
def runBytes (s : State) : List Byte → Option (State × List TraceEntry)
  | [] => some (s, [])
  | b :: rest =>
    match s.select b, step (s.given b) with
    | .ok i, .next t => (runBytes t rest).map fun p => (p.1, { op := i, out := t.out } :: p.2)
    | .ok _, .fault _ => none
    | .ok _, .refused _ => none
    | .error _, _ => none

/-- The frames a trace delivers, in order. -/
def framesOf : List TraceEntry → List Frame
  | [] => []
  | e :: rest =>
    match e.out.event with
    | .frameReady f => f :: framesOf rest
    | .none => framesOf rest
    | .bufferOverflow _ => framesOf rest

/-- The overflow events of a trace, in order. -/
def overflowsOf : List TraceEntry → List (List Byte)
  | [] => []
  | e :: rest =>
    match e.out.event with
    | .bufferOverflow d => d :: overflowsOf rest
    | .none => overflowsOf rest
    | .frameReady _ => overflowsOf rest

end Sys2Proof.Machine
end

