-- ==== Sys2Proof/Certificates/Slice0/Obligations.lean ====
section
/-! DEFINITION. The statements for the provers. `read` of a cell is `none` where it holds no value (R14, log entry 2). -/

open Sys2Proof Sys2Proof.Machine

/-! The step, reset and the host's inputs. -/

/-- R125, R56: a step whose next input is a byte takes that input and runs the operation the byte selects. -/
def Obligations.ByteStepRunsSelectedOperation : Prop :=
  ∀ (s : State) (b : Byte) (rest : List HostInput) (i : Instr), s.input = .byte b :: rest →
    decode (.byte s.view) [b] = .ok (i, []) → step s = exec i { s with input := rest }

/-- R83, R150: with no byte offered nothing changes, however long it lasts. The step without a byte is the model's own (log
entry 4). -/
def Obligations.CoreHoldsItsStateWithoutInput : Prop :=
  ∀ (s : State) (n : Nat), s.input = [] → Host.Core.run Sys2Proof.core n s = .next s

/-- R156 with R155: the reset operation gives the reset state whatever the state before, with no output. That no cell holds a
value is log entry 2's choice, and that pending inputs stay is log entry 4's. -/
def Obligations.ResetGivesInitialStateSilently : Prop :=
  ∀ (s : State) (rest : List HostInput), s.input = .reset :: rest →
    ∃ t, step s = .next t ∧ t.fill = 0 ∧ t.acc = false ∧ (∀ i, t.buf.read i = none) ∧ t.snap = none ∧
      t.snapValid = false ∧ t.out.event = .none ∧ t.out.status = .noFrame ∧ t.out.diag = [] ∧ t.input = rest ∧
      t = { State.reset with input := rest }

/-- R131, R65: the run and trace the statements below speak of are the machine's own steps on that byte list. -/
def Obligations.ByteRunIsTheMachinesRun : Prop :=
  ∀ (s : State) (bs : List Byte) (p : State × List TraceEntry), runBytes s bs = some p →
    Host.Core.run Sys2Proof.core bs.length (s.givenAll bs) = .next { p.1 with input := [] } ∧ p.2.length = bs.length ∧
      (p.2.map fun e => encode e.op) = bs.map fun b => [b]

/-- Log entry 7: a table word the decoder reads is what the very next step runs, in every state. A BYTE row's operation is
executed; a FRAME row's frame is completed and handed to the Decoder operation it selects. -/
def Obligations.PlacedTableWordRuns : Prop :=
  ∀ (s : State) (nbits w : Nat) (i : Instr), decodeTableWord nbits w = some i →
    (nbits ≤ 8 → ∃ u t, step (s.withFetchWord nbits w) = exec i u ∧ exec i u = .next t ∧ u.snap = s.snap ∧ u.input = s.input) ∧
    (¬ nbits ≤ 8 → ∃ u t, step (s.withFetchWord nbits w) = exec i u ∧ exec i u = .next t ∧ u.snap = s.snap ∧
      u.input = s.input ∧ t.out.event = .frameReady (encode i))

/-! Selection and encoding. -/

/-- R56: the five conditions, with `BUF'` the buffer after the append, and the operation each selects. That the length byte
plus 3 does not wrap is log entry 11's choice (decision D3), and that overflow waits for the byte after the last cell log
entry 10's (D4). -/
def Obligations.FramerSelectionFollowsTheMap : Prop :=
  ∀ (s : State) (b : Byte),
    (b = 0x54 → s.select b = .ok .fSof) ∧
    (b ≠ 0x54 → s.acc = false → s.select b = .ok (.fNoise b)) ∧
    (b ≠ 0x54 → s.acc = true → s.fill < 256 → s.fill + 1 < 3 → s.select b = .ok (.fAppend b)) ∧
    (∀ n, b ≠ 0x54 → s.acc = true → s.fill < 256 → 3 ≤ s.fill + 1 → (s.buf.write s.fill b).read 2 = some n →
      s.fill + 1 < n.toNat + 3 → s.select b = .ok (.fAppend b)) ∧
    (∀ n, b ≠ 0x54 → s.acc = true → s.fill < 256 → 3 ≤ s.fill + 1 → (s.buf.write s.fill b).read 2 = some n →
      n.toNat + 3 ≤ s.fill + 1 → s.select b = .ok (.fComplete b)) ∧
    (b ≠ 0x54 → s.acc = true → s.fill = 256 → s.select b = .ok (.fOverflow b))

/-- R77, R63: in every state that meets R15 every byte selects an operation, a well-formed one whose encoding is that byte. -/
def Obligations.EveryByteSelectsAnOperation : Prop :=
  ∀ (s : State) (b : Byte), s.Inv → ∃ i, s.select b = .ok i ∧ i.wf = true ∧ encode i = [b]

/-- R57: the four conditions on a frame and the operation each selects. That a short frame is malformed and a long monitor
frame is decoded is log entry 12's choice (decisions D7 and D8). -/
def Obligations.DecoderSelectionFollowsTheMap : Prop :=
  ∀ f : Frame,
    (f.length < 2 → selectDecoder f = .dMalformed f) ∧
    (∀ t, f[1]? = some t → t ≠ 0xB3 → selectDecoder f = .dUnknown f) ∧
    (f[1]? = some 0xB3 → f.length < 18 → selectDecoder f = .dMalformed f) ∧
    (f[1]? = some 0xB3 → 18 ≤ f.length → selectDecoder f = .dMonitor f)

/-- Decoding the encoding of a well-formed operation, in a format and accumulator state that admits it, gives it back and
leaves the following bytes. -/
def Obligations.DecodeOfEncodeIsTheOperation : Prop :=
  ∀ (i : Instr) (c : Ctx) (rest : List Byte), i.wf = true → admits c i = true → decode c (encode i ++ rest) = .ok (i, rest)

/-- Whatever decodes is well formed, is admitted where it was read, and is the encoding of what it decodes to. -/
def Obligations.DecodedBytesAreTheEncoding : Prop :=
  ∀ (c : Ctx) (bs rest : List Byte) (i : Instr), decode c bs = .ok (i, rest) →
    i.wf = true ∧ admits c i = true ∧ bs = encode i ++ rest

/-- Words written from the encodings of R51 and the table decode to the operations they stand for. -/
def Obligations.WrittenWordsDecode : Prop :=
  decodeTableWord 8 0b01010100 = some .fSof ∧
  decodeTableWord 8 0b10110011 = some (.fNoise 0xB3) ∧
  decodeTableWord 24 0b010101001111111100000000 = some (.dUnknown [0x54, 0xFF, 0x00]) ∧
  decodeTableWord 24 0b010101001011001100000000 = some (.dMalformed [0x54, 0xB3, 0x00]) ∧
  decodeTableWord 24 0b010101001011001100001111 = some (.dMonitor ([0x54, 0xB3, 0x0F] ++ List.replicate 15 0x00)) ∧
  decodeTableWord 24 0b010101000101010000000000 = none

/-! The Framer's operations. -/

/-- R71: the sentinel selects `F.SOF` in every state; it leaves one accumulated byte, the sentinel, whatever was there, and
reports nothing. That a frame it cuts is reported to nobody is log entry 13's choice (decision D13 of the spec). -/
def Obligations.SofStartsANewFrame : Prop :=
  ∀ s : State, s.select 0x54 = .ok .fSof ∧ ∃ t, exec .fSof s = .next t ∧ t.fill = 1 ∧ t.acc = true ∧
    t.buf.read 0 = some 0x54 ∧ t.out = { event := .none, status := .noFrame, diag := [] } ∧
    t.snap = s.snap ∧ t.building = s.building ∧ t.input = s.input

/-- R72: a non-sentinel byte in Idle selects `F.NOISE`, which passes the byte through and writes no state. -/
def Obligations.NoisePassesThrough : Prop :=
  ∀ (s : State) (b : Byte), (b ≠ 0x54 → s.acc = false → s.select b = .ok (.fNoise b)) ∧
    ∃ t, exec (.fNoise b) s = .next t ∧ t.out = { event := .none, status := .noFrame, diag := [.noise b] } ∧
      t.fill = s.fill ∧ t.acc = s.acc ∧ (∀ i, t.buf.read i = s.buf.read i) ∧
      t.snap = s.snap ∧ t.building = s.building ∧ t.input = s.input

/-- R73: with spare capacity `F.APPEND` stores the byte at `FILL` and nowhere else, advances `FILL` by one, and reports
nothing, also where it fills the last cell. -/
def Obligations.AppendStoresTheByteAtFill : Prop :=
  ∀ (s : State) (b : Byte), s.fill < 256 → ∃ t, exec (.fAppend b) s = .next t ∧ t.buf.read s.fill = some b ∧
    (∀ i, i ≠ s.fill → t.buf.read i = s.buf.read i) ∧ t.fill = s.fill + 1 ∧ t.acc = s.acc ∧
    t.out = { event := .none, status := .noFrame, diag := [] } ∧
    t.snap = s.snap ∧ t.building = s.building ∧ t.input = s.input

/-- R75, R125: with the cells below `FILL` holding values, `F.COMPLETE` delivers those bytes and the input byte as the
frame, resets the accumulator, and in the same step does what the Decoder operation the frame selects does. That the Decoder
runs in the same step is log entry 16's choice (decision D12). -/
def Obligations.CompleteDeliversAndDecodesTheFrame : Prop :=
  ∀ (s : State) (b : Byte), s.fill < 256 → (∀ i, i < s.fill → (s.buf.read i).isSome) → ∃ f u t,
    f.length = s.fill + 1 ∧ (∀ i, i < s.fill → f[i]? = s.buf.read i) ∧ f[s.fill]? = some b ∧
    u = { s with buf := [], fill := 0, acc := false, out := { event := .frameReady f, status := .noFrame, diag := [] } } ∧
    exec (.fComplete b) s = .next t ∧ exec (selectDecoder f) u = .next t ∧
    t.fill = 0 ∧ t.acc = false ∧ t.out.event = .frameReady f ∧ t.input = s.input

/-- R76, R128: with the buffer full of values `F.OVERFLOW` reports the 256 bytes and their count, resets the accumulator,
decodes nothing, and does the same whatever the input byte. That the input byte is dropped is log entry 10's choice
(decision D4). -/
def Obligations.OverflowReportsAndResets : Prop :=
  ∀ (s : State) (b : Byte), (∀ i, i < 256 → (s.buf.read i).isSome) → ∃ d t,
    d.length = 256 ∧ (∀ i, i < 256 → d[i]? = s.buf.read i) ∧
    exec (.fOverflow b) s = .next t ∧ t.fill = 0 ∧ t.acc = false ∧
    t.out = { event := .bufferOverflow d, status := .noFrame, diag := [.overflowReport 256 d] } ∧
    t.snap = s.snap ∧ t.building = s.building ∧ t.input = s.input ∧ ∀ c, exec (.fOverflow c) s = exec (.fOverflow b) s

/-- R14 and log entry 2: where an operation clears the accumulator, no cell at or above the new `FILL` holds a value. -/
def Obligations.ClearedCellsHoldNoValue : Prop :=
  ∀ (s t : State) (b : Byte) (i : Nat),
    (exec .fSof s = .next t → 1 ≤ i → t.buf.read i = none) ∧
    (exec (.fComplete b) s = .next t → t.buf.read i = none) ∧
    (exec (.fOverflow b) s = .next t → t.buf.read i = none)

/-- R34, R84 and log entry 8: the accesses the manual says never happen stop the operation: an append at capacity, and a copy
of a cell that holds no value. -/
def Obligations.OutOfRangeBufferAccessStops : Prop :=
  ∀ (s : State) (b : Byte),
    (256 ≤ s.fill → exec (.fAppend b) s = .fault .bufferOutOfRange ∧ exec (.fComplete b) s = .fault .bufferOutOfRange) ∧
    (∀ i, s.fill < 256 → i < s.fill → s.buf.read i = none → exec (.fComplete b) s = .fault .cellUnwritten) ∧
    (∀ i, i < 256 → s.buf.read i = none → exec (.fOverflow b) s = .fault .cellUnwritten)

/-! The Decoder's operations. -/

/-- R92: a type byte other than 0xB3 selects `D.UNKNOWN`, which sets the status `Ignored` and changes nothing else. -/
def Obligations.UnknownTypeIsIgnored : Prop :=
  ∀ (s : State) (f : Frame), (∀ t, f[1]? = some t → t ≠ 0xB3 → selectDecoder f = .dUnknown f) ∧
    ∃ t, exec (.dUnknown f) s = .next t ∧ t.out.status = .ignored ∧ t.out.event = s.out.event ∧ t.out.diag = s.out.diag ∧
      t.fill = s.fill ∧ t.acc = s.acc ∧ (∀ i, t.buf.read i = s.buf.read i) ∧ t.snap = s.snap ∧ t.building = s.building ∧
      t.input = s.input

/-- R95, R129: an undersized monitor frame selects `D.MALFORMED`, which reports the frame, sets the status `Malformed` and
changes nothing else. The status, the report and the unchanged snapshot are log entry 12's choice (decision D7 of the spec).
-/
def Obligations.MalformedFrameIsReported : Prop :=
  ∀ (s : State) (f : Frame), (f[1]? = some 0xB3 → f.length < 18 → selectDecoder f = .dMalformed f) ∧
    ∃ t, exec (.dMalformed f) s = .next t ∧ t.out.status = .malformed ∧ t.out.event = s.out.event ∧
      t.out.diag = s.out.diag ++ [.decodeError f] ∧ t.fill = s.fill ∧ t.acc = s.acc ∧
      (∀ i, t.buf.read i = s.buf.read i) ∧ t.snap = s.snap ∧ t.building = s.building ∧ t.input = s.input

/-- R93, R97, R94: a monitor frame of at least 18 bytes replaces all seven fields by the sums of its bytes at the fixed
offsets, sets `SNAP_VALID`, and changes nothing else of the machine; bytes 0, 2, 14, 15 and from 18 on play no part. The
local record is empty afterwards (log entry 6). That a frame above 18 bytes is decoded is log entry 12's choice (decision
D7). -/
def Obligations.MonitorUpdatesTheSnapshot : Prop :=
  ∀ (h n st q0 q1 q2 q3 ce du v0 v1 p0 p1 g0 g1 w0 w1 : Byte) (rest : List Byte) (s : State),
    ∃ t r, exec (.dMonitor ([h, 0xB3, n, st, q0, q1, q2, q3, ce, du, v0, v1, p0, p1, g0, g1, w0, w1] ++ rest)) s = .next t ∧
      t.snap = some r ∧ t.snapValid = true ∧ t.out.status = .updated r ∧
      r.opState = st ∧
      r.freq.toNat = q0.toNat + 2 ^ 8 * q1.toNat + 2 ^ 16 * q2.toNat + 2 ^ 24 * q3.toNat ∧
      r.ctrlErr.toNat = ce.toNat ∧ r.dutyRaw = du ∧
      r.vbridgeRaw.toNat = v0.toNat + 2 ^ 8 * v1.toNat ∧ r.prxRaw.toNat = p0.toNat + 2 ^ 8 * p1.toNat ∧
      r.vinRaw.toNat = w0.toNat + 2 ^ 8 * w1.toNat ∧
      t.out.event = s.out.event ∧ t.out.diag = s.out.diag ∧ t.fill = s.fill ∧ t.acc = s.acc ∧
      (∀ i, t.buf.read i = s.buf.read i) ∧ t.building = Building.empty ∧
      t.input = s.input

/-- R34, R95: `D.MONITOR` is never given a value for a byte the frame does not have: on fewer than 18 bytes it stops, so the
snapshot is not touched (log entry 8). -/
def Obligations.MonitorNeverReadsPastTheFrame : Prop :=
  ∀ (f : Frame) (s : State), f.length < 18 → exec (.dMonitor f) s = .fault .frameOutOfRange

/-- R58, R93: on a long enough frame `D.MONITOR` is the seven extractions read at the fields' offsets, in order, from an empty
record, followed by the store of the complete record. -/
def Obligations.MonitorIsTheSevenExtractions : Prop :=
  ∀ (f : Frame) (s : State), 18 ≤ f.length → ∃ i1 i2 i3 i4 i5 i6 i7,
    fieldOf .opState f = .ok i1 ∧ fieldOf .freq f = .ok i2 ∧ fieldOf .ctrlErr f = .ok i3 ∧ fieldOf .duty f = .ok i4 ∧
    fieldOf .vbridge f = .ok i5 ∧ fieldOf .prx f = .ok i6 ∧ fieldOf .vin f = .ok i7 ∧
    exec (.dMonitor f) s =
      andThen (exec i1 s.beginRecord) fun s => andThen (exec i2 s) fun s => andThen (exec i3 s) fun s =>
      andThen (exec i4 s) fun s => andThen (exec i5 s) fun s => andThen (exec i6 s) fun s =>
      andThen (exec i7 s) State.commitSnapshot

/-- R105, R108, R113, R114, R115: the multi-byte fields are the little-endian reads at their offsets. -/
def Obligations.MultiByteFieldsAreLittleEndianReads : Prop :=
  ∀ (f : Frame) (s : State), 18 ≤ f.length → ∃ t r, exec (.dMonitor f) s = .next t ∧ t.snap = some r ∧
    memRead f 4 4 = some r.freq.toNat ∧ memRead f 10 2 = some r.vbridgeRaw.toNat ∧ memRead f 12 2 = some r.prxRaw.toNat ∧
    memRead f 16 2 = some r.vinRaw.toNat

/-- R116, R97, R94: two frames of at least 18 bytes that agree at the decoded offsets (3 to 13, 16, 17) update the snapshot
alike, whatever their other bytes and their lengths. That a frame above 18 bytes is decoded alike is log entry 12's choice
(decision D7). -/
def Obligations.UndecodedBytesDoNotMatter : Prop :=
  ∀ (f g : Frame) (s : State), 18 ≤ f.length → 18 ≤ g.length →
    (∀ i, 3 ≤ i → i < 18 → i ≠ 14 → i ≠ 15 → f[i]? = g[i]?) → exec (.dMonitor f) s = exec (.dMonitor g) s

/-- R98, R36, R96: the status of a decode is a function of the frame alone; a decode always completes, stores one whole
snapshot when the status is `Updated`, and leaves the snapshot alone otherwise. -/
def Obligations.DecodeIsStatelessAndAllOrNothing : Prop :=
  ∀ f : Frame, ∃ d : DecodeStatus, ∀ s : State, ∃ t, exec (selectDecoder f) s = .next t ∧ t.out.status = d ∧
    (∀ r, d = .updated r → t.snap = some r) ∧ ((∀ r, d ≠ .updated r) → t.snap = s.snap) ∧
    t.fill = s.fill ∧ t.acc = s.acc ∧ t.buf = s.buf

/-! The field extractions. The record they write is `building`, the local record of R90 (log entry 6). -/

/-- R107: `op_state` is `f[3]` verbatim. -/
def Obligations.StateFieldIsTheByteVerbatim : Prop :=
  ∀ (f : Frame) (b : Byte) (s : State), (f[3]? = some b → fieldOf .opState f = .ok (.xState b)) ∧
    ∃ t, exec (.xState b) s = .next t ∧ t.building.opState = some b ∧
      t = { s with building := { s.building with opState := t.building.opState } }

/-- R108: `freq` is the little-endian sum of `f[4..8)`, unsigned, in 32 bits. -/
def Obligations.FrequencyIsTheLittleEndianSum : Prop :=
  ∀ (f : Frame) (b0 b1 b2 b3 : Byte) (s : State),
    (f[4]? = some b0 → f[5]? = some b1 → f[6]? = some b2 → f[7]? = some b3 → fieldOf .freq f = .ok (.xFreq b0 b1 b2 b3)) ∧
    ∃ t v, exec (.xFreq b0 b1 b2 b3) s = .next t ∧ t.building.freq = some v ∧
      v.toNat = b0.toNat + 2 ^ 8 * b1.toNat + 2 ^ 16 * b2.toNat + 2 ^ 24 * b3.toNat ∧
      t = { s with building := { s.building with freq := some v } }

/-- R110, R109: `ctrl_err` is `f[8]` zero-extended: its upper byte is 0. The zero extension is log entry 14's choice
(decision D10). -/
def Obligations.ControlErrorIsZeroExtended : Prop :=
  ∀ (f : Frame) (b : Byte) (s : State), (f[8]? = some b → fieldOf .ctrlErr f = .ok (.xCtrlErr b)) ∧
    ∃ t v, exec (.xCtrlErr b) s = .next t ∧ t.building.ctrlErr = some v ∧ v.toNat = b.toNat ∧
      (∀ i, 8 ≤ i → v.getLsbD i = false) ∧ t = { s with building := { s.building with ctrlErr := some v } }

/-- R112, R111: `duty_raw` is `f[9]` and the duty cycle of a snapshot that holds it is the exact quotient by 100. -/
def Obligations.DutyIsTheByteOverHundred : Prop :=
  ∀ (f : Frame) (b : Byte) (s : State), (f[9]? = some b → fieldOf .duty f = .ok (.xDuty b)) ∧
    ∃ t, exec (.xDuty b) s = .next t ∧ t.building.dutyRaw = some b ∧
      t = { s with building := { s.building with dutyRaw := some b } } ∧
      ∀ r : Snapshot, t.building.dutyRaw = some r.dutyRaw → r.duty * 100 = (b.toNat : Rat)

/-- R113, R111: `vbridge_raw` is the little-endian sum of `f[10..12)`, and its value is the exact quotient by 1000. That the
field is unsigned is log entry 14's choice (decision D10). -/
def Obligations.BridgeVoltageIsTheSumOverThousand : Prop :=
  ∀ (f : Frame) (lo hi : Byte) (s : State),
    (f[10]? = some lo → f[11]? = some hi → fieldOf .vbridge f = .ok (.xVbridge lo hi)) ∧
    ∃ t v, exec (.xVbridge lo hi) s = .next t ∧ t.building.vbridgeRaw = some v ∧ v.toNat = lo.toNat + 2 ^ 8 * hi.toNat ∧
      t = { s with building := { s.building with vbridgeRaw := some v } } ∧
      ∀ r : Snapshot, r.vbridgeRaw = v → r.vbridge * 1000 = ((lo.toNat + 2 ^ 8 * hi.toNat : Nat) : Rat)

/-- R114, R111: `prx_raw` is the little-endian sum of `f[12..14)`, and its value is the exact quotient by 1000. That the
field is unsigned is log entry 14's choice (decision D10). -/
def Obligations.ReceivedPowerIsTheSumOverThousand : Prop :=
  ∀ (f : Frame) (lo hi : Byte) (s : State),
    (f[12]? = some lo → f[13]? = some hi → fieldOf .prx f = .ok (.xPrx lo hi)) ∧
    ∃ t v, exec (.xPrx lo hi) s = .next t ∧ t.building.prxRaw = some v ∧ v.toNat = lo.toNat + 2 ^ 8 * hi.toNat ∧
      t = { s with building := { s.building with prxRaw := some v } } ∧
      ∀ r : Snapshot, r.prxRaw = v → r.prx * 1000 = ((lo.toNat + 2 ^ 8 * hi.toNat : Nat) : Rat)

/-- R115, R111: `vin_raw` is the little-endian sum of `f[16..18)`, and its value is the exact quotient by 1000. That the
field is unsigned is log entry 14's choice (decision D10). -/
def Obligations.InputVoltageIsTheSumOverThousand : Prop :=
  ∀ (f : Frame) (lo hi : Byte) (s : State),
    (f[16]? = some lo → f[17]? = some hi → fieldOf .vin f = .ok (.xVin lo hi)) ∧
    ∃ t v, exec (.xVin lo hi) s = .next t ∧ t.building.vinRaw = some v ∧ v.toNat = lo.toNat + 2 ^ 8 * hi.toNat ∧
      t = { s with building := { s.building with vinRaw := some v } } ∧
      ∀ r : Snapshot, r.vinRaw = v → r.vin * 1000 = ((lo.toNat + 2 ^ 8 * hi.toNat : Nat) : Rat)

/-- R105, R106: a little-endian read is bounded by its width, and its bit `i` is bit `i mod 8` of the byte at offset `off +
i / 8`. R106 is marked as derived from R105 in the spec. -/
def Obligations.FieldBitsComeFromTheirByte : Prop :=
  ∀ (f : Frame) (off n v : Nat), memRead f off n = some v → v < 2 ^ (8 * n) ∧
    ∀ i, i < 8 * n → ∃ b, f[off + i / 8]? = some b ∧ v.testBit i = b.getLsbD (i % 8)

/-- R111: the scaled fields of two snapshots have equal values exactly when their raw integers are equal: nothing is rounded. -/
def Obligations.ScaledFieldsLoseNothing : Prop :=
  ∀ r q : Snapshot, (r.duty = q.duty ↔ r.dutyRaw = q.dutyRaw) ∧ (r.vbridge = q.vbridge ↔ r.vbridgeRaw = q.vbridgeRaw) ∧
    (r.prx = q.prx ↔ r.prxRaw = q.prxRaw) ∧ (r.vin = q.vin ↔ r.vinRaw = q.vinRaw)

/-! Invariants. -/

/-- The invariant of R15 (with R14, R19, R25) holds at reset. -/
def Obligations.ResetMeetsTheInvariant : Prop := State.reset.Inv

/-- R15, R130: every step from a state that meets the invariant gives a state that meets it. -/
def Obligations.StepKeepsTheInvariant : Prop := ∀ s t : State, s.Inv → step s = .next t → t.Inv

/-- R130, R143: no step from a state that meets the invariant stops. -/
def Obligations.StepNeverStops : Prop := ∀ s : State, s.Inv → ∃ t, step s = .next t

/-- R15 I-f: a full buffer's length byte is 254 or 255. -/
def Obligations.FullBufferDeclares254Or255 : Prop :=
  ∀ s : State, s.Inv → s.fill = 256 → ∃ n, s.buf.read 2 = some n ∧ (n = 254 ∨ n = 255)

/-- Every step, from every state, keeps the buffer in canonical form. -/
def Obligations.StepKeepsTheBufferCanonical : Prop :=
  ∀ s t : State, s.buf.wf = true → step s = .next t → t.buf.wf = true

/-! Whole-machine rules. -/

/-- R78: the transitions between Idle and Accumulating(k), each with its event; `BUF'` is the buffer after the append. -/
def Obligations.StepFollowsTheTransitionTable : Prop :=
  ∀ (s : State) (b : Byte), s.Inv → ∃ t, step (s.given b) = .next t ∧
    (b = 0x54 → t.acc = true ∧ t.fill = 1 ∧ t.out.event = .none) ∧
    (b ≠ 0x54 → s.acc = false → t.acc = false ∧ t.fill = 0 ∧ t.out.event = .none ∧ t.out.diag = [.noise b]) ∧
    (b ≠ 0x54 → s.acc = true → s.fill < 256 →
      (s.fill + 1 < 3 ∨ ∃ n, (s.buf.write s.fill b).read 2 = some n ∧ s.fill + 1 < n.toNat + 3) →
      t.acc = true ∧ t.fill = s.fill + 1 ∧ t.out.event = .none) ∧
    (b ≠ 0x54 → s.acc = true → s.fill < 256 →
      (3 ≤ s.fill + 1 ∧ ∃ n, (s.buf.write s.fill b).read 2 = some n ∧ n.toNat + 3 ≤ s.fill + 1) →
      t.acc = false ∧ t.fill = 0 ∧ ∃ f, t.out.event = .frameReady f) ∧
    (b ≠ 0x54 → s.acc = true → s.fill = 256 → t.acc = false ∧ t.fill = 0 ∧ ∃ d, t.out.event = .bufferOverflow d)

/-- R13: `ACC` is set true only by the sentinel and set false only by a completed frame or an overflow, among all
operations. -/
def Obligations.AccChangesOnlyAtFrameBoundaries : Prop :=
  ∀ (i : Instr) (s t : State), exec i s = .next t →
    (s.acc = false → t.acc = true → i = .fSof) ∧
    (s.acc = true → t.acc = false → ∃ b, i = .fComplete b ∨ i = .fOverflow b)

/-- R10, R26, R18: the Decoder and the extractions never write `BUF`, `FILL` or `ACC`; the Framer's operations other than the
one that runs the Decoder never write the snapshot, nor does an extraction by itself. -/
def Obligations.OwnershipIsExclusive : Prop :=
  ∀ (s t : State) (i : Instr), exec i s = .next t →
    (match i with
      | .fSof => t.snap = s.snap
      | .fNoise _ => t.snap = s.snap
      | .fAppend _ => t.snap = s.snap
      | .fComplete _ => t.snap = s.snap ∨ ∃ r, t.out.status = .updated r ∧ t.snap = some r
      | .fOverflow _ => t.snap = s.snap
      | .dMonitor _ => t.buf = s.buf ∧ t.fill = s.fill ∧ t.acc = s.acc
      | .dMalformed _ => t.buf = s.buf ∧ t.fill = s.fill ∧ t.acc = s.acc ∧ t.snap = s.snap
      | .dUnknown _ => t.buf = s.buf ∧ t.fill = s.fill ∧ t.acc = s.acc ∧ t.snap = s.snap
      | .xState _ => t.buf = s.buf ∧ t.fill = s.fill ∧ t.acc = s.acc ∧ t.snap = s.snap
      | .xFreq _ _ _ _ => t.buf = s.buf ∧ t.fill = s.fill ∧ t.acc = s.acc ∧ t.snap = s.snap
      | .xCtrlErr _ => t.buf = s.buf ∧ t.fill = s.fill ∧ t.acc = s.acc ∧ t.snap = s.snap
      | .xDuty _ => t.buf = s.buf ∧ t.fill = s.fill ∧ t.acc = s.acc ∧ t.snap = s.snap
      | .xVbridge _ _ => t.buf = s.buf ∧ t.fill = s.fill ∧ t.acc = s.acc ∧ t.snap = s.snap
      | .xPrx _ _ => t.buf = s.buf ∧ t.fill = s.fill ∧ t.acc = s.acc ∧ t.snap = s.snap
      | .xVin _ _ => t.buf = s.buf ∧ t.fill = s.fill ∧ t.acc = s.acc ∧ t.snap = s.snap)

/-- R18, R20, R36: the snapshot changes in a byte's step only when that step delivers a frame and its status is `Updated`, and
then it is that status's snapshot; `SNAP_VALID` is never cleared by a step. -/
def Obligations.SnapshotChangesOnlyOnUpdated : Prop :=
  ∀ (s t : State) (b : Byte), step (s.given b) = .next t →
    ((∀ r, t.out.status ≠ .updated r) → t.snap = s.snap) ∧
    (∀ r, t.out.status = .updated r → t.snap = some r ∧ ∃ f, t.out.event = .frameReady f ∧ f[1]? = some 0xB3 ∧ 18 ≤ f.length) ∧
    (s.snapValid = true → t.snapValid = true)

/-- R126: the outputs of a byte's step are one of the listed combinations, so at most one of `Noise`, `OverflowReport`,
`DecodeError` and a snapshot update occurs. The case Malformed with its report is log entry 12's choice (decision D7), and
the overflow report of 256 bytes log entry 10's (D4). -/
def Obligations.StepOutputsAreOneOfTheListedCases : Prop :=
  ∀ (s t : State) (b : Byte), step (s.given b) = .next t →
    (t.out = { event := .none, status := .noFrame, diag := [] }) ∨
    (t.out = { event := .none, status := .noFrame, diag := [.noise b] } ∧ s.acc = false ∧ b ≠ 0x54) ∨
    (∃ f, t.out = { event := .frameReady f, status := .ignored, diag := [] }) ∨
    (∃ f, t.out = { event := .frameReady f, status := .malformed, diag := [.decodeError f] }) ∨
    (∃ f r, t.out = { event := .frameReady f, status := .updated r, diag := [] }) ∨
    (∃ d, d.length = 256 ∧ t.out = { event := .bufferOverflow d, status := .noFrame, diag := [.overflowReport 256 d] })

/-- R138, R95: a byte's step has the status `Malformed` only for a delivered frame of type 0xB3 with fewer than 18 bytes,
and leaves the snapshot as it was. The status, the report and the unchanged snapshot are log entry 12's choice (decision
D7). -/
def Obligations.MalformedOnlyForShortMonitorFrames : Prop :=
  ∀ (s t : State) (b : Byte), s.Inv → step (s.given b) = .next t → t.out.status = .malformed →
    ∃ f, t.out.event = .frameReady f ∧ f[1]? = some 0xB3 ∧ f.length < 18 ∧ t.out.diag = [.decodeError f] ∧ t.snap = s.snap

/-- R79, R81, R82, R62: every frame a step delivers begins with the sentinel and holds it nowhere else, has exactly as many
bytes as its length byte says plus three, at least 3 and at most 256. R82 and R79 are marked as derived in the spec; that
the length byte plus 3 does not wrap is log entry 11's choice (decision D3). -/
def Obligations.DeliveredFramesAreWellFormed : Prop :=
  ∀ (s t : State) (b : Byte) (f : Frame), s.Inv → step (s.given b) = .next t → t.out.event = .frameReady f →
    f[0]? = some 0x54 ∧ (∀ i, 1 ≤ i → f[i]? ≠ some 0x54) ∧ 3 ≤ f.length ∧ f.length ≤ 256 ∧
      ∃ n, f[2]? = some n ∧ f.length = n.toNat + 3 ∧ n ≠ 0x54 ∧ n.toNat ≤ 253

/-- R137, R81: an overflow's discarded bytes are 256, begin with the sentinel, and declare 254 or 255 payload bytes; nothing
is decoded. The report of exactly 256 bytes is log entry 10's choice (decision D4). -/
def Obligations.OverflowOnlyForOversizedFrames : Prop :=
  ∀ (s t : State) (b : Byte) (d : List Byte), s.Inv → step (s.given b) = .next t → t.out.event = .bufferOverflow d →
    d.length = 256 ∧ d[0]? = some 0x54 ∧ (∃ n, d[2]? = some n ∧ (n = 254 ∨ n = 255)) ∧
      t.out.status = .noFrame ∧ t.out.diag = [.overflowReport 256 d] ∧ t.snap = s.snap

/-- R85: after a byte's step whose event is `FrameReady` or `BufferOverflow`, the accumulator equals its initial state. -/
def Obligations.AccumulatorIsInitialAfterAnEvent : Prop :=
  ∀ (s t : State) (b : Byte), step (s.given b) = .next t → t.out.event ≠ .none → t.accumulatorInitial

/-- R77, R98: the outputs of a byte's step and the accumulator after it are functions of the byte and of `ACC`, `FILL` and
`BUF[0..FILL)`: two states that agree there, whatever their snapshots, step alike. -/
def Obligations.StepDependsOnTheAccumulatorAlone : Prop :=
  ∀ (s u : State) (b : Byte), s.Inv → u.Inv → s.sameAccumulator u → ∃ t v, step (s.given b) = .next t ∧
    step (u.given b) = .next v ∧ t.sameAccumulator v ∧ t.out = v.out

/-! Whole streams. -/

/-- R86: after a sentinel the accumulator and the whole trace of the rest of the stream do not depend on what came before. -/
def Obligations.SentinelForgetsHistory : Prop :=
  ∀ (s u : State) (rest : List Byte), s.Inv → u.Inv → ∃ p q, runBytes s (0x54 :: rest) = some p ∧ runBytes u (0x54 :: rest) = some q ∧
    p.2 = q.2 ∧ p.1.sameAccumulator q.1

/-- R72, R158: from Idle every byte before the first sentinel is passed through, one output each in order, and changes nothing
else. -/
def Obligations.NoiseIsPassedThroughInOrder : Prop :=
  ∀ (s : State) (bs : List Byte), s.acc = false → (∀ b ∈ bs, b ≠ 0x54) → ∃ p, runBytes s bs = some p ∧
    p.2 = (bs.map fun b =>
      ({ op := .fNoise b, out := { event := .none, status := .noFrame, diag := [.noise b] } } : TraceEntry)) ∧
    p.1.snap = s.snap ∧ p.1.buf = s.buf ∧ p.1.fill = s.fill ∧ p.1.acc = false

/-- R51, R75, R81: from every state, the bytes of a deliverable frame deliver exactly that frame, on its last byte, with no
overflow, and the snapshot afterwards is what the Decoder operation the frame selects leaves. That the Decoder runs in the
last byte's step is log entry 16's choice (decision D12). -/
def Obligations.DeliverableFrameIsDelivered : Prop :=
  ∀ (s : State) (f : Frame), deliverable f = true → ∃ p d t, runBytes s f = some p ∧ framesOf p.2 = [f] ∧
    overflowsOf p.2 = [] ∧ p.2.getLast? = some d ∧ d.out.event = .frameReady f ∧ p.1.accumulatorInitial ∧
    exec (selectDecoder f) s = .next t ∧ d.out.status = t.out.status ∧ p.1.snap = t.snap

/-- R158, R159, R86: whatever bytes come first, a deliverable frame that follows is the last frame delivered: the core
synchronises, and frames cut by a sentinel are lost. -/
def Obligations.CoreSynchronisesOnAnyStream : Prop :=
  ∀ (s : State) (junk : List Byte) (f : Frame), s.Inv → deliverable f = true → ∃ p,
    runBytes s (junk ++ f) = some p ∧ (framesOf p.2).getLast? = some f ∧ p.1.accumulatorInitial

/-- R64, R93, R31: the monitor frame written for seven field values and two skipped bytes, none of its later bytes being the
sentinel, gives a snapshot that holds exactly those values, from every state. -/
def Obligations.MonitorStreamRoundTrip : Prop :=
  ∀ (s : State) (st : Byte) (fq : Word) (ce du : Byte) (vb px : Half) (k14 k15 : Byte) (vn : Half),
    (∀ b ∈ (monitorOf st fq ce du vb px k14 k15 vn).drop 1, b ≠ 0x54) →
    ∃ p, runBytes s (monitorOf st fq ce du vb px k14 k15 vn) = some p ∧
      p.1.snap = some { opState := st, freq := fq, ctrlErr := ce.setWidth 16, dutyRaw := du, vbridgeRaw := vb,
                        prxRaw := px, vinRaw := vn } ∧
      p.1.snapValid = true ∧ p.1.fill = 0 ∧ p.1.acc = false

/-- R80, R99: a frame with length byte 0 completes on its third byte and leaves the snapshot unchanged, with the status
`Malformed` for type 0xB3 and `Ignored` for every other type. The status Malformed of type 0xB3 is log entry 12's choice
(decision D7). -/
def Obligations.ZeroLengthFrameCompletesAtThreeBytes : Prop :=
  ∀ (s : State) (ty : Byte), ty ≠ 0x54 → ∃ p, runBytes s [0x54, ty, 0x00] = some p ∧ framesOf p.2 = [[0x54, ty, 0x00]] ∧
    p.1.snap = s.snap ∧ (ty = 0xB3 → p.1.out.status = .malformed) ∧ (ty ≠ 0xB3 → p.1.out.status = .ignored)

/-- R87, R166: after a header that declares 254 or 255 bytes, non-sentinel bytes give no frame, and exactly one overflow if
there are more than 253 of them, none before; the overflow is the 257th byte of the stream, and every later byte is noise.
R87 marks this reading as derived; that the 257th byte is dropped is log entry 10's choice (decision D4), and that the
length does not wrap log entry 11's (D3). -/
def Obligations.OversizedFrameOverflowsExactlyOnce : Prop :=
  ∀ (s : State) (ty n : Byte) (bs : List Byte), ty ≠ 0x54 → (n = 254 ∨ n = 255) → (∀ b ∈ bs, b ≠ 0x54) →
    ∃ p, runBytes s (0x54 :: ty :: n :: bs) = some p ∧ framesOf p.2 = [] ∧ p.1.snap = s.snap ∧
      (bs.length ≤ 253 → overflowsOf p.2 = [] ∧ p.1.fill = bs.length + 3 ∧ p.1.acc = true) ∧
      (253 < bs.length → overflowsOf p.2 = [0x54 :: ty :: n :: bs.take 253] ∧ p.1.accumulatorInitial ∧
        (p.2.drop 257).map (fun e => e.out.diag) = (bs.drop 254).map fun b => [.noise b])
end

