-- ==== Sys2Proof/Laws/Operands.lean ====
section
/-! SUPPORT. The laws of the operand forms: bounds of the little-endian sum, the composed fields as natural numbers, loads. -/

namespace Sys2Proof.Machine

/-- The sum fits its `8n`-bit container (R105). -/
theorem le_lt (bs : List Byte) : le bs < 2 ^ (8 * bs.length) := by
  induction bs with
  | nil => simp [le]
  | cons b rest ih =>
    have hb := b.isLt
    have hp : 2 ^ (8 * (rest.length + 1)) = 2 ^ 8 * 2 ^ (8 * rest.length) := by rw [← Nat.pow_add]; congr 1; omega
    simp only [le, List.length_cons, hp]
    omega

@[simp] theorem compose16_toNat (lo hi : Byte) : (compose16 lo hi).toNat = lo.toNat + 2 ^ 8 * hi.toNat := by
  have h := le_lt [lo, hi]
  simp only [le, List.length_cons, List.length_nil] at h
  simp only [compose16, le, BitVec.toNat_ofNat]
  omega

@[simp] theorem compose32_toNat (b0 b1 b2 b3 : Byte) :
    (compose32 b0 b1 b2 b3).toNat = b0.toNat + 2 ^ 8 * b1.toNat + 2 ^ 16 * b2.toNat + 2 ^ 24 * b3.toNat := by
  have h := le_lt [b0, b1, b2, b3]
  simp only [le, List.length_cons, List.length_nil] at h
  simp only [compose32, le, BitVec.toNat_ofNat]
  omega

@[simp] theorem zext16_toNat (b : Byte) : (zext16 b).toNat = b.toNat := by
  have := b.isLt
  simp only [zext16, BitVec.toNat_setWidth]
  omega

theorem loadByte_some {f : Frame} {off : Nat} {b : Byte} (k : Byte → Result) (h : f[off]? = some b) :
    loadByte f off k = k b := by
  simp [loadByte, h]

theorem loadByte_none {f : Frame} {off : Nat} (k : Byte → Result) (h : f.length ≤ off) :
    loadByte f off k = .fault .frameOutOfRange := by
  simp [loadByte, List.getElem?_eq_none h]

end Sys2Proof.Machine
end

