-- ==== Sys2Proof/Laws/Memory.lean ====
section
/-! SUPPORT. The laws of the buffer: read after write, the canonical form, and copies of a run of cells. -/

namespace Sys2Proof.Machine

@[simp] theorem Memory.read_nil (i : Nat) : Memory.read [] i = none := rfl

theorem Memory.read_cons (a : Nat) (v : Byte) (m : Memory) (i : Nat) :
    Memory.read ((a, v) :: m) i = if a = i then some v else Memory.read m i := rfl

@[simp] theorem Memory.read_write_same (m : Memory) (i : Nat) (v : Byte) : (m.write i v).read i = some v := by
  induction m with
  | nil => simp [Memory.write, Memory.read]
  | cons c m ih =>
    obtain ⟨a, w⟩ := c
    simp only [Memory.write]
    split
    · simp [Memory.read]
    · split
      · simp [Memory.read]
      · simp [Memory.read, ih, show ¬ a = i by omega]

theorem Memory.read_write_other (m : Memory) {i j : Nat} (v : Byte) (h : j ≠ i) : (m.write i v).read j = m.read j := by
  induction m with
  | nil => simp [Memory.write, Memory.read, h.symm]
  | cons c m ih =>
    obtain ⟨a, w⟩ := c
    simp only [Memory.write]
    split
    · simp [Memory.read, h.symm]
    · split
      · subst_vars; simp [Memory.read, h.symm]
      · simp [Memory.read, ih]

theorem Memory.mem_write {m : Memory} {i : Nat} {v : Byte} {c : Host.Cell} (h : c ∈ m.write i v) :
    c = (i, v) ∨ c ∈ m := by
  induction m with
  | nil => simpa [Memory.write] using h
  | cons d m ih =>
    obtain ⟨a, w⟩ := d
    simp only [Memory.write] at h
    split at h
    · simpa using h
    · split at h
      · rcases List.mem_cons.mp h with h | h
        · exact .inl h
        · exact .inr (List.mem_cons_of_mem _ h)
      · rcases List.mem_cons.mp h with h | h
        · exact .inr (h ▸ List.mem_cons_self)
        · exact (ih h).imp_right (List.mem_cons_of_mem _)

theorem Memory.wf_iff (m : Memory) :
    m.wf = true ↔ m.Pairwise (fun x y => x.1 < y.1) ∧ ∀ c ∈ m, c.1 < Config.cap := by
  simp [Memory.wf]

@[simp] theorem Memory.wf_nil : Memory.wf [] = true := by simp [Memory.wf]

theorem Memory.rising_write {m : Memory} (i : Nat) (v : Byte) (h : m.Pairwise fun x y => x.1 < y.1) :
    (m.write i v).Pairwise fun x y => x.1 < y.1 := by
  induction m with
  | nil => simp [Memory.write]
  | cons c m ih =>
    obtain ⟨a, w⟩ := c
    obtain ⟨h1, h2⟩ := List.pairwise_cons.mp h
    simp only [Memory.write]
    split
    · next hi =>
      refine List.pairwise_cons.mpr ⟨fun d hd => ?_, h⟩
      rcases List.mem_cons.mp hd with rfl | hd
      · exact hi
      · exact Nat.lt_trans hi (h1 d hd)
    · split
      · next hi => subst hi; exact List.pairwise_cons.mpr ⟨h1, h2⟩
      · refine List.pairwise_cons.mpr ⟨fun d hd => ?_, ih h2⟩
        rcases Memory.mem_write hd with rfl | hd
        · simp only; omega
        · exact h1 d hd

/-- A store in range keeps the canonical form. -/
theorem Memory.wf_write {m : Memory} {i : Nat} (v : Byte) (h : m.wf = true) (hi : i < Config.cap) :
    (m.write i v).wf = true := by
  obtain ⟨h1, h2⟩ := (Memory.wf_iff m).mp h
  refine (Memory.wf_iff _).mpr ⟨Memory.rising_write i v h1, fun c hc => ?_⟩
  rcases Memory.mem_write hc with rfl | hc
  · exact hi
  · exact h2 c hc

/-- A cell holds a value exactly where it is listed. -/
theorem Memory.read_isSome (m : Memory) (i : Nat) : (m.read i).isSome ↔ i ∈ m.map Prod.fst := by
  induction m with
  | nil => simp
  | cons c m ih =>
    obtain ⟨a, v⟩ := c
    by_cases h : a = i
    · simp [Memory.read, h]
    · have h' : ¬ i = a := fun e => h e.symm
      simp only [Memory.read, h, if_false, List.map_cons, List.mem_cons, h', false_or, ih]

/-- Writing above every listed index appends the cell. -/
theorem Memory.write_eq_append {m : Memory} {i : Nat} (v : Byte) (h : ∀ c ∈ m, c.1 < i) :
    m.write i v = m ++ [(i, v)] := by
  induction m with
  | nil => rfl
  | cons c m ih =>
    obtain ⟨a, w⟩ := c
    have ha : a < i := h (a, w) List.mem_cons_self
    simp only [Memory.write, show ¬ i < a by omega, show ¬ i = a by omega, if_false, List.cons_append]
    rw [ih fun c hc => h c (List.mem_cons_of_mem _ hc)]

/-- Where exactly the cells below `n` are listed, they are in canonical form. -/
theorem Memory.wf_of_cells {m : Memory} {n : Nat} (h : m.map Prod.fst = List.range n) (hn : n ≤ Config.cap) :
    m.wf = true := by
  refine (Memory.wf_iff m).mpr ⟨?_, fun c hc => ?_⟩
  · have := List.pairwise_lt_range (n := n)
    rw [← h] at this
    exact List.pairwise_map.mp this
  · have : c.1 ∈ List.range n := h ▸ List.mem_map_of_mem hc
    exact Nat.lt_of_lt_of_le (List.mem_range.mp this) hn

theorem Memory.cells_write {m : Memory} {n : Nat} (v : Byte) (h : m.map Prod.fst = List.range n) :
    (m.write n v).map Prod.fst = List.range (n + 1) := by
  rw [Memory.write_eq_append v fun c hc => List.mem_range.mp (h ▸ List.mem_map_of_mem hc), List.map_append, h,
    List.range_succ]
  rfl

theorem Memory.read_isSome_of_cells {m : Memory} {n : Nat} (h : m.map Prod.fst = List.range n) (i : Nat) :
    (m.read i).isSome ↔ i < n := by
  rw [Memory.read_isSome, h, List.mem_range]

/-- What a copy of cells is: as many bytes as asked for, each the byte its cell holds. -/
theorem Memory.readFrom_eq_some {m : Memory} {n : Nat} : ∀ {a : Nat} {f : List Byte},
    m.readFrom a n = some f ↔ f.length = n ∧ ∀ i, i < n → f[i]? = m.read (a + i) := by
  induction n with
  | zero =>
    intro a f
    simp only [Memory.readFrom, Option.some.injEq]
    constructor
    · rintro rfl; simp
    · rintro ⟨h, _⟩; exact (List.length_eq_zero_iff.mp h).symm
  | succ n ih =>
    intro a f
    simp only [Memory.readFrom]
    cases hr : m.read a with
    | none =>
      simp only [reduceCtorEq, false_iff]
      rintro ⟨hl, h⟩
      have := h 0 (Nat.succ_pos n)
      simp only [Nat.add_zero, hr, List.getElem?_eq_none_iff, hl] at this
      omega
    | some v =>
      simp only [Option.map_eq_some_iff]
      constructor
      · rintro ⟨g, hg, rfl⟩
        obtain ⟨hl, h⟩ := ih.mp hg
        refine ⟨by simp [hl], fun i hi => ?_⟩
        cases i with
        | zero => simp [hr]
        | succ i => simpa [Nat.add_assoc, Nat.add_comm 1 i] using h i (by omega)
      · rintro ⟨hl, h⟩
        cases f with
        | nil => simp at hl
        | cons b g =>
          have h0 := h 0 (Nat.succ_pos n)
          simp only [List.getElem?_cons_zero, Nat.add_zero, hr, Option.some.injEq] at h0
          subst h0
          refine ⟨g, ih.mpr ⟨by simpa using hl, fun i hi => ?_⟩, rfl⟩
          simpa [Nat.add_assoc, Nat.add_comm 1 i] using h (i + 1) (by omega)

/-- A copy exists exactly when every cell holds a value. -/
theorem Memory.readFrom_isSome {m : Memory} {n : Nat} : ∀ {a : Nat},
    (m.readFrom a n).isSome ↔ ∀ i, i < n → (m.read (a + i)).isSome := by
  induction n with
  | zero => simp [Memory.readFrom]
  | succ n ih =>
    intro a
    simp only [Memory.readFrom]
    cases hr : m.read a with
    | none =>
      simp only [Option.isSome_none, Bool.false_eq_true, false_iff]
      intro h
      simpa [hr] using h 0 (Nat.succ_pos n)
    | some v =>
      simp only [Option.isSome_map, ih]
      constructor
      · intro h i hi
        cases i with
        | zero => simp [hr]
        | succ i => simpa [Nat.add_assoc, Nat.add_comm 1 i] using h i (by omega)
      · intro h i hi
        simpa [Nat.add_assoc, Nat.add_comm 1 i] using h (i + 1) (by omega)

/-- The cells made from a byte list hold its bytes in order. -/
theorem Memory.read_ofBytes (bs : List Byte) : ∀ (a i : Nat), (Memory.ofBytes bs a).read (a + i) = bs[i]? := by
  induction bs with
  | nil => intro a i; simp [Memory.ofBytes]
  | cons b rest ih =>
    intro a i
    cases i with
    | zero => simp [Memory.ofBytes, Memory.read]
    | succ i =>
      simp only [Memory.ofBytes, Memory.read, show ¬ a = a + (i + 1) by omega, if_false, List.getElem?_cons_succ]
      rw [show a + (i + 1) = a + 1 + i by omega]
      exact ih (a + 1) i

theorem Memory.cells_ofBytes (bs : List Byte) : ∀ a : Nat, (Memory.ofBytes bs a).map Prod.fst = List.range' a bs.length := by
  induction bs with
  | nil => intro a; rfl
  | cons b rest ih => intro a; simp [Memory.ofBytes, ih, List.range'_succ]

/-- Cells made from a byte list that fits the buffer are in canonical form. -/
theorem Memory.wf_ofBytes {bs : List Byte} (h : bs.length ≤ Config.cap) : (Memory.ofBytes bs 0).wf = true :=
  Memory.wf_of_cells (n := bs.length) (by rw [Memory.cells_ofBytes, List.range_eq_range']) h

/-- Appending a byte to cells made from a byte list. -/
theorem Memory.write_ofBytes (p : List Byte) (b : Byte) : ∀ a : Nat,
    (Memory.ofBytes p a).write (a + p.length) b = Memory.ofBytes (p ++ [b]) a := by
  induction p with
  | nil => intro a; rfl
  | cons c p ih =>
    intro a
    simp only [Memory.ofBytes, List.length_cons, Memory.write, List.cons_append, show ¬ a + (p.length + 1) < a by omega,
      show ¬ a + (p.length + 1) = a by omega, if_false]
    rw [show a + (p.length + 1) = a + 1 + p.length by omega, ih]

end Sys2Proof.Machine
end

