-- ==== Sys2Proof/Laws/State.lean ====
section
/-! SUPPORT. One lemma per field and update of the state, each true by rfl. -/

namespace Sys2Proof.Machine

@[simp] theorem State.clearAccumulator_buf (s : State) : s.clearAccumulator.buf = [] := rfl
@[simp] theorem State.clearAccumulator_fill (s : State) : s.clearAccumulator.fill = 0 := rfl
@[simp] theorem State.clearAccumulator_acc (s : State) : s.clearAccumulator.acc = s.acc := rfl
@[simp] theorem State.clearAccumulator_snap (s : State) : s.clearAccumulator.snap = s.snap := rfl
@[simp] theorem State.clearAccumulator_building (s : State) : s.clearAccumulator.building = s.building := rfl
@[simp] theorem State.clearAccumulator_input (s : State) : s.clearAccumulator.input = s.input := rfl
@[simp] theorem State.clearAccumulator_out (s : State) : s.clearAccumulator.out = s.out := rfl

@[simp] theorem State.toIdle_buf (s : State) : s.toIdle.buf = [] := rfl
@[simp] theorem State.toIdle_fill (s : State) : s.toIdle.fill = 0 := rfl
@[simp] theorem State.toIdle_acc (s : State) : s.toIdle.acc = false := rfl
@[simp] theorem State.toIdle_snap (s : State) : s.toIdle.snap = s.snap := rfl
@[simp] theorem State.toIdle_building (s : State) : s.toIdle.building = s.building := rfl
@[simp] theorem State.toIdle_input (s : State) : s.toIdle.input = s.input := rfl
@[simp] theorem State.toIdle_out (s : State) : s.toIdle.out = s.out := rfl

@[simp] theorem State.setAcc_buf (s : State) : s.setAcc.buf = s.buf := rfl
@[simp] theorem State.setAcc_fill (s : State) : s.setAcc.fill = s.fill := rfl
@[simp] theorem State.setAcc_acc (s : State) : s.setAcc.acc = true := rfl
@[simp] theorem State.setAcc_snap (s : State) : s.setAcc.snap = s.snap := rfl
@[simp] theorem State.setAcc_building (s : State) : s.setAcc.building = s.building := rfl
@[simp] theorem State.setAcc_input (s : State) : s.setAcc.input = s.input := rfl
@[simp] theorem State.setAcc_out (s : State) : s.setAcc.out = s.out := rfl

@[simp] theorem State.beginOut_buf (e : FrameEvent) (ds : List Diagnostic) (s : State) : (s.beginOut e ds).buf = s.buf := rfl
@[simp] theorem State.beginOut_fill (e : FrameEvent) (ds : List Diagnostic) (s : State) : (s.beginOut e ds).fill = s.fill := rfl
@[simp] theorem State.beginOut_acc (e : FrameEvent) (ds : List Diagnostic) (s : State) : (s.beginOut e ds).acc = s.acc := rfl
@[simp] theorem State.beginOut_snap (e : FrameEvent) (ds : List Diagnostic) (s : State) : (s.beginOut e ds).snap = s.snap := rfl
@[simp] theorem State.beginOut_building (e : FrameEvent) (ds : List Diagnostic) (s : State) : (s.beginOut e ds).building = s.building := rfl
@[simp] theorem State.beginOut_input (e : FrameEvent) (ds : List Diagnostic) (s : State) : (s.beginOut e ds).input = s.input := rfl
@[simp] theorem State.beginOut_out (e : FrameEvent) (ds : List Diagnostic) (s : State) : (s.beginOut e ds).out = { event := e, status := .noFrame, diag := ds } := rfl

@[simp] theorem State.setStatus_buf (d : DecodeStatus) (s : State) : (s.setStatus d).buf = s.buf := rfl
@[simp] theorem State.setStatus_fill (d : DecodeStatus) (s : State) : (s.setStatus d).fill = s.fill := rfl
@[simp] theorem State.setStatus_acc (d : DecodeStatus) (s : State) : (s.setStatus d).acc = s.acc := rfl
@[simp] theorem State.setStatus_snap (d : DecodeStatus) (s : State) : (s.setStatus d).snap = s.snap := rfl
@[simp] theorem State.setStatus_building (d : DecodeStatus) (s : State) : (s.setStatus d).building = s.building := rfl
@[simp] theorem State.setStatus_input (d : DecodeStatus) (s : State) : (s.setStatus d).input = s.input := rfl
@[simp] theorem State.setStatus_out (d : DecodeStatus) (s : State) : (s.setStatus d).out = { s.out with status := d } := rfl

@[simp] theorem State.emit_buf (d : Diagnostic) (s : State) : (s.emit d).buf = s.buf := rfl
@[simp] theorem State.emit_fill (d : Diagnostic) (s : State) : (s.emit d).fill = s.fill := rfl
@[simp] theorem State.emit_acc (d : Diagnostic) (s : State) : (s.emit d).acc = s.acc := rfl
@[simp] theorem State.emit_snap (d : Diagnostic) (s : State) : (s.emit d).snap = s.snap := rfl
@[simp] theorem State.emit_building (d : Diagnostic) (s : State) : (s.emit d).building = s.building := rfl
@[simp] theorem State.emit_input (d : Diagnostic) (s : State) : (s.emit d).input = s.input := rfl
@[simp] theorem State.emit_out (d : Diagnostic) (s : State) : (s.emit d).out = { s.out with diag := s.out.diag ++ [d] } := rfl

@[simp] theorem State.beginRecord_buf (s : State) : s.beginRecord.buf = s.buf := rfl
@[simp] theorem State.beginRecord_fill (s : State) : s.beginRecord.fill = s.fill := rfl
@[simp] theorem State.beginRecord_acc (s : State) : s.beginRecord.acc = s.acc := rfl
@[simp] theorem State.beginRecord_snap (s : State) : s.beginRecord.snap = s.snap := rfl
@[simp] theorem State.beginRecord_building (s : State) : s.beginRecord.building = Building.empty := rfl
@[simp] theorem State.beginRecord_input (s : State) : s.beginRecord.input = s.input := rfl
@[simp] theorem State.beginRecord_out (s : State) : s.beginRecord.out = s.out := rfl

@[simp] theorem State.takeInput_buf (s : State) : s.takeInput.buf = s.buf := rfl
@[simp] theorem State.takeInput_fill (s : State) : s.takeInput.fill = s.fill := rfl
@[simp] theorem State.takeInput_acc (s : State) : s.takeInput.acc = s.acc := rfl
@[simp] theorem State.takeInput_snap (s : State) : s.takeInput.snap = s.snap := rfl
@[simp] theorem State.takeInput_building (s : State) : s.takeInput.building = s.building := rfl
@[simp] theorem State.takeInput_input (s : State) : s.takeInput.input = s.input.tail := rfl
@[simp] theorem State.takeInput_out (s : State) : s.takeInput.out = s.out := rfl

@[simp] theorem State.offerByte_buf (b : Byte) (s : State) : (s.offerByte b).buf = s.buf := rfl
@[simp] theorem State.offerByte_fill (b : Byte) (s : State) : (s.offerByte b).fill = s.fill := rfl
@[simp] theorem State.offerByte_acc (b : Byte) (s : State) : (s.offerByte b).acc = s.acc := rfl
@[simp] theorem State.offerByte_snap (b : Byte) (s : State) : (s.offerByte b).snap = s.snap := rfl
@[simp] theorem State.offerByte_building (b : Byte) (s : State) : (s.offerByte b).building = s.building := rfl
@[simp] theorem State.offerByte_input (b : Byte) (s : State) : (s.offerByte b).input = .byte b :: s.input := rfl
@[simp] theorem State.offerByte_out (b : Byte) (s : State) : (s.offerByte b).out = s.out := rfl

@[simp] theorem State.applyReset_buf (s : State) : s.applyReset.buf = [] := rfl
@[simp] theorem State.applyReset_fill (s : State) : s.applyReset.fill = 0 := rfl
@[simp] theorem State.applyReset_acc (s : State) : s.applyReset.acc = false := rfl
@[simp] theorem State.applyReset_snap (s : State) : s.applyReset.snap = none := rfl
@[simp] theorem State.applyReset_building (s : State) : s.applyReset.building = Building.empty := rfl
@[simp] theorem State.applyReset_input (s : State) : s.applyReset.input = s.input := rfl
@[simp] theorem State.applyReset_out (s : State) : s.applyReset.out = StepOut.quiet := rfl

@[simp] theorem State.given_buf (b : Byte) (s : State) : (s.given b).buf = s.buf := rfl
@[simp] theorem State.given_fill (b : Byte) (s : State) : (s.given b).fill = s.fill := rfl
@[simp] theorem State.given_acc (b : Byte) (s : State) : (s.given b).acc = s.acc := rfl
@[simp] theorem State.given_snap (b : Byte) (s : State) : (s.given b).snap = s.snap := rfl
@[simp] theorem State.given_building (b : Byte) (s : State) : (s.given b).building = s.building := rfl
@[simp] theorem State.given_input (b : Byte) (s : State) : (s.given b).input = [.byte b] := rfl
@[simp] theorem State.given_out (b : Byte) (s : State) : (s.given b).out = s.out := rfl

@[simp] theorem State.reset_buf : State.reset.buf = [] := rfl
@[simp] theorem State.reset_fill : State.reset.fill = 0 := rfl
@[simp] theorem State.reset_acc : State.reset.acc = false := rfl
@[simp] theorem State.reset_snap : State.reset.snap = none := rfl
@[simp] theorem State.reset_building : State.reset.building = Building.empty := rfl
@[simp] theorem State.reset_input : State.reset.input = [] := rfl
@[simp] theorem State.reset_out : State.reset.out = StepOut.quiet := rfl

end Sys2Proof.Machine
end

