-- ==== Sys2Proof/Laws/Ops.lean ====
section
/-! SUPPORT. What each shared operation can do, said once. -/

namespace Sys2Proof.Machine

@[simp] theorem andThen_next (s : State) (k : State → Result) : andThen (.next s) k = k s := rfl
@[simp] theorem andThen_fault (r : Fault) (k : State → Result) : andThen (.fault r) k = .fault r := rfl
@[simp] theorem andThen_refused (r : Refusal) (k : State → Result) : andThen (.refused r) k = .refused r := rfl

/-- A sequence that answers a next state went through one. -/
theorem andThen_eq_next {o : Result} {k : State → Result} {t : State} :
    andThen o k = .next t ↔ ∃ s, o = .next s ∧ k s = .next t := by
  cases o <;> simp

theorem andThen_assoc (o : Result) (k l : State → Result) :
    andThen (andThen o k) l = andThen o fun s => andThen (k s) l := by
  cases o <;> rfl

/-- The append store in range. -/
theorem State.appendByte_next {s : State} (b : Byte) (h : s.fill < Config.cap) :
    s.appendByte b = .next { s with buf := s.buf.write s.fill b, fill := s.fill + 1 } := by
  simp [State.appendByte, State.store, h]

/-- The append store out of range. -/
theorem State.appendByte_fault {s : State} (b : Byte) (h : ¬ s.fill < Config.cap) :
    s.appendByte b = .fault .bufferOutOfRange := by
  simp [State.appendByte, State.store, h]

/-- Every store keeps the buffer's canonical form. -/
theorem State.store_wf {s t : State} {i : Nat} {v : Byte} (h : s.buf.wf = true) (hs : s.store i v = .next t) :
    t.buf.wf = true := by
  unfold State.store at hs
  split at hs
  · next hi => cases hs; exact Memory.wf_write v h hi
  · cases hs

/-- The append keeps the buffer's canonical form. -/
theorem State.appendByte_wf {s t : State} {b : Byte} (h : s.buf.wf = true) (hs : s.appendByte b = .next t) :
    t.buf.wf = true := by
  obtain ⟨u, hu, ht⟩ := andThen_eq_next.mp hs
  cases ht
  exact State.store_wf (t := u) h hu

/-- Clearing leaves the canonical form, as does reset. -/
theorem State.clearAccumulator_wf (s : State) : s.clearAccumulator.buf.wf = true := Memory.wf_nil

theorem State.reset_buf_wf : State.reset.buf.wf = true := Memory.wf_nil

theorem State.commitSnapshot_next {s : State} {r : Snapshot} (h : s.building.complete = some r) :
    s.commitSnapshot = .next ({ s with snap := some r, building := Building.empty }.setStatus (.updated r)) := by
  simp [State.commitSnapshot, h]

theorem State.reportError_overflow (d : List Byte) (s : State) :
    s.reportError (.bufferOverflow d) = s.toIdle.beginOut (.bufferOverflow d) [.overflowReport d.length d] := rfl

theorem State.reportError_malformed (f : Frame) (s : State) :
    s.reportError (.malformedFrame f) = (s.emit (.decodeError f)).setStatus .malformed := rfl

end Sys2Proof.Machine
end

