-- ==== Sys2Proof/Laws/Decoder.lean ====
section
/-! SUPPORT. What the Decoder can do: the dispatch, and the snapshot a long enough monitor frame gives. -/

namespace Sys2Proof.Machine

/-- The snapshot built from the bytes at the decoded offsets (R93). -/
def snapshotFrom (st q0 q1 q2 q3 ce du v0 v1 p0 p1 w0 w1 : Byte) : Snapshot :=
  { opState := st, freq := compose32 q0 q1 q2 q3, ctrlErr := zext16 ce, dutyRaw := du, vbridgeRaw := compose16 v0 v1,
    prxRaw := compose16 p0 p1, vinRaw := compose16 w0 w1 }

/-- A sequence of at least 18 bytes, taken apart. -/
theorem exists_eighteen {f : Frame} (h : 18 ≤ f.length) :
    ∃ (b0 b1 b2 b3 b4 b5 b6 b7 b8 b9 b10 b11 b12 b13 b14 b15 b16 b17 : Byte) (rest : Frame),
      f = b0 :: b1 :: b2 :: b3 :: b4 :: b5 :: b6 :: b7 :: b8 :: b9 :: b10 :: b11 :: b12 :: b13 :: b14 :: b15 :: b16 :: b17
        :: rest := by
  iterate 18
    rcases f with _ | ⟨b, f⟩
    · simp at h
    refine ⟨b, ?_⟩
    simp only [List.length_cons, Nat.reduceLeDiff] at h
    try simp only [List.cons.injEq, true_and]
  exact ⟨f, rfl⟩

/-- `D.MONITOR` on at least 18 bytes: all seven fields at once, nothing else of the machine's state (R93). -/
theorem execDMonitor_eq (h ty n st q0 q1 q2 q3 ce du v0 v1 p0 p1 g0 g1 w0 w1 : Byte) (rest : Frame) (s : State) :
    execDMonitor (h :: ty :: n :: st :: q0 :: q1 :: q2 :: q3 :: ce :: du :: v0 :: v1 :: p0 :: p1 :: g0 :: g1 :: w0 :: w1
        :: rest) s
      = .next ({ s with snap := some (snapshotFrom st q0 q1 q2 q3 ce du v0 v1 p0 p1 w0 w1), building := Building.empty }.setStatus
          (.updated (snapshotFrom st q0 q1 q2 q3 ce du v0 v1 p0 p1 w0 w1))) := rfl

/-- `D.MONITOR` on a long enough frame stores some snapshot, the same whatever the state. -/
theorem execDMonitor_next {f : Frame} (h : Config.monMinLen ≤ f.length) : ∃ r : Snapshot, r.ctrlErr.toNat < 256 ∧
    ∀ s, execDMonitor f s = .next ({ s with snap := some r, building := Building.empty }.setStatus (.updated r)) := by
  obtain ⟨b0, b1, b2, b3, b4, b5, b6, b7, b8, b9, b10, b11, b12, b13, b14, b15, b16, b17, rest, rfl⟩ := exists_eighteen h
  exact ⟨snapshotFrom b3 b4 b5 b6 b7 b8 b9 b10 b11 b12 b13 b16 b17, by simp only [snapshotFrom, zext16_toNat]; exact b8.isLt,
    fun s => execDMonitor_eq ..⟩

theorem decoderCase_monitor {f : Frame} (h : decoderCase f = .monitor) : Config.monMinLen ≤ f.length := by
  unfold decoderCase at h
  split at h
  · cases h
  · split at h
    · cases h
    · split at h
      · cases h
      · omega

/-- What a decode does, whatever the state: it ignores the frame, reports it, or stores one snapshot whole (R90). -/
theorem runDecoder_cases (f : Frame) :
    (∀ s, runDecoder f s = .next (s.setStatus .ignored)) ∨
    (∀ s, runDecoder f s = .next ((s.emit (.decodeError f)).setStatus .malformed)) ∨
    (∃ r : Snapshot, r.ctrlErr.toNat < 256 ∧
      ∀ s, runDecoder f s = .next ({ s with snap := some r, building := Building.empty }.setStatus (.updated r))) := by
  unfold runDecoder
  cases h : decoderCase f with
  | malformed => exact .inr (.inl fun _ => rfl)
  | unknown => exact .inl fun _ => rfl
  | monitor => exact .inr (.inr (execDMonitor_next (decoderCase_monitor h)))

end Sys2Proof.Machine
end

