-- ==== Sys2Proof/Laws/Framer.lean ====
section
/-! SUPPORT. What each Framer operation answers, and what selects it. -/

namespace Sys2Proof.Machine

/-- The state after a sentinel (R71). -/
def afterSof (s : State) : State :=
  { s with buf := [(0, Config.sentinel)], fill := 1, acc := true, out := StepOut.quiet }

theorem execFSof_eq (s : State) : execFSof s = .next (afterSof s) := rfl

/-- The state after an append (R73). -/
def afterAppend (b : Byte) (s : State) : State :=
  { s with buf := s.buf.write s.fill b, fill := s.fill + 1, out := StepOut.quiet }

theorem execFAppend_eq {s : State} (b : Byte) (h : s.fill < Config.cap) :
    execFAppend b s = .next (afterAppend b s) := by
  simp [execFAppend, State.appendByte_next b h, State.beginOut, afterAppend, StepOut.quiet]

/-- The accumulator reset and the event of a completion, before the Decoder runs (R75). -/
def afterFrame (f : Frame) (s : State) : State := s.toIdle.beginOut (.frameReady f) []

theorem execFComplete_eq {s : State} {b : Byte} {f : Frame} (h : s.fill < Config.cap)
    (hf : (s.buf.write s.fill b).readFrom 0 (s.fill + 1) = some f) :
    execFComplete b s = runDecoder f (afterFrame f s) := by
  simp only [execFComplete, State.appendByte_next b h, andThen_next, hf]
  rfl

theorem execFOverflow_eq {s : State} {d : List Byte} (b : Byte) (h : s.buf.readFrom 0 Config.cap = some d) :
    execFOverflow b s = .next (s.toIdle.beginOut (.bufferOverflow d) [.overflowReport d.length d]) := by
  simp [execFOverflow, h, State.reportError]

/-- The Framer's selection, inverted: which condition holds for each operation it can give (R56). -/
theorem selectFramer_cases {v : FramerView} {b : Byte} {i : Instr} (h : selectFramer v b = .ok i) :
    (b = Config.sentinel ∧ i = .fSof) ∨
    (b ≠ Config.sentinel ∧ v.acc = false ∧ i = .fNoise b) ∨
    (b ≠ Config.sentinel ∧ v.acc = true ∧ v.fill < Config.cap ∧
      completionTest (v.fill + 1) (v.lenByteAfter b) = some false ∧ i = .fAppend b) ∨
    (b ≠ Config.sentinel ∧ v.acc = true ∧ v.fill < Config.cap ∧
      completionTest (v.fill + 1) (v.lenByteAfter b) = some true ∧ i = .fComplete b) ∨
    (b ≠ Config.sentinel ∧ v.acc = true ∧ Config.cap ≤ v.fill ∧ i = .fOverflow b) := by
  unfold selectFramer at h
  split at h
  · next hb => cases h; exact .inl ⟨hb, rfl⟩
  · next hb =>
    split at h
    · next ha => cases h; exact .inr (.inl ⟨hb, ha, rfl⟩)
    · next ha =>
      have ha : v.acc = true := by simpa using ha
      split at h
      · next hf =>
        split at h
        · cases h
        · next hc => cases h; exact .inr (.inr (.inr (.inl ⟨hb, ha, hf, hc, rfl⟩)))
        · next hc => cases h; exact .inr (.inr (.inl ⟨hb, ha, hf, hc, rfl⟩))
      · next hf => cases h; exact .inr (.inr (.inr (.inr ⟨hb, ha, by omega, rfl⟩)))

/-- The length cell the selection looks at is the one of the buffer after the append (R74). -/
theorem State.lenByteAfter_view (s : State) (b : Byte) :
    s.view.lenByteAfter b = (s.buf.write s.fill b).read Config.offLen := by
  unfold FramerView.lenByteAfter State.view
  split
  · next h => simp only at h; rw [← h, Memory.read_write_same]
  · next h => simp only at h; rw [Memory.read_write_other _ _ (Ne.symm h)]

end Sys2Proof.Machine
end

