-- ==== Sys2Proof/Laws/PerInstr.lean ====
section
/-! SUPPORT. One law per operation: its encoding, in the format that admits it, is not empty and fits the buffer. -/

namespace Sys2Proof.Laws.EncodeFits

/-- The encoding holds at least one byte and at most `CAP` (R50, R53, R81). -/
def Statement (i : Instr) : Prop :=
  ∀ c, admits c i = true → 1 ≤ (encode i).length ∧ (encode i).length ≤ Config.cap

theorem deliverable_length {f : Frame} (h : deliverable f = true) : 1 ≤ f.length ∧ f.length ≤ Config.cap := by
  simp only [deliverable, Bool.and_eq_true, decide_eq_true_eq, beq_iff_eq] at h
  refine ⟨?_, h.2⟩
  cases f with
  | nil => simp at h
  | cons _ _ => simp

theorem frame_fits {c : Ctx} {f : Frame}
    (h : (match c with | .byte _ => false | .frame => deliverable f | .field _ => false) = true) :
    1 ≤ f.length ∧ f.length ≤ Config.cap := by
  cases c with
  | frame => exact deliverable_length h
  | byte _ => cases h
  | field _ => cases h

theorem fSof : Statement .fSof := fun _ _ => by decide
theorem fNoise (b : Byte) : Statement (.fNoise b) := fun _ _ => by simp [encode, Config.cap]
theorem fAppend (b : Byte) : Statement (.fAppend b) := fun _ _ => by simp [encode, Config.cap]
theorem fComplete (b : Byte) : Statement (.fComplete b) := fun _ _ => by simp [encode, Config.cap]
theorem fOverflow (b : Byte) : Statement (.fOverflow b) := fun _ _ => by simp [encode, Config.cap]
theorem dMonitor (f : Frame) : Statement (.dMonitor f) := fun _ h => frame_fits h
theorem dMalformed (f : Frame) : Statement (.dMalformed f) := fun _ h => frame_fits h
theorem dUnknown (f : Frame) : Statement (.dUnknown f) := fun _ h => frame_fits h
theorem xState (b : Byte) : Statement (.xState b) := fun _ _ => by simp [encode, Config.cap]
theorem xFreq (b0 b1 b2 b3 : Byte) : Statement (.xFreq b0 b1 b2 b3) := fun _ _ => by simp [encode, Config.cap]
theorem xCtrlErr (b : Byte) : Statement (.xCtrlErr b) := fun _ _ => by simp [encode, Config.cap]
theorem xDuty (b : Byte) : Statement (.xDuty b) := fun _ _ => by simp [encode, Config.cap]
theorem xVbridge (lo hi : Byte) : Statement (.xVbridge lo hi) := fun _ _ => by simp [encode, Config.cap]
theorem xPrx (lo hi : Byte) : Statement (.xPrx lo hi) := fun _ _ => by simp [encode, Config.cap]
theorem xVin (lo hi : Byte) : Statement (.xVin lo hi) := fun _ _ => by simp [encode, Config.cap]

end Sys2Proof.Laws.EncodeFits
end

