-- ==== Sys2Proof/Laws/Step.lean ====
section
/-! SUPPORT. What a step can do: which input it takes and which operation it runs. -/

namespace Sys2Proof.Machine

theorem step_nil {s : State} (h : s.input = []) : step s = .next s := by simp [step, h, awaitInput]

theorem step_reset {s : State} {rest : List HostInput} (h : s.input = .reset :: rest) :
    step s = .next s.takeInput.applyReset := by
  simp [step, h, takeReset]

@[simp] theorem State.takeInput_select (s : State) (b : Byte) : s.takeInput.select b = s.select b := rfl

theorem step_byte {s : State} {b : Byte} {rest : List HostInput} (h : s.input = .byte b :: rest) :
    step s = takeByte b s.takeInput := by
  simp [step, h]

theorem takeByte_ok {s : State} {b : Byte} {i : Instr} (hi : s.select b = .ok i) : takeByte b s = exec i s := by
  simp [takeByte, hi]

/-- A byte that leads to a next state ran the operation it selected. -/
theorem takeByte_next {s t : State} {b : Byte} (h : takeByte b s = .next t) :
    ∃ i, s.select b = .ok i ∧ exec i s = .next t := by
  unfold takeByte at h
  split at h
  · next i hi => exact ⟨i, hi, h⟩
  · cases h

/-- The three kinds of step. -/
theorem step_next {s t : State} (h : step s = .next t) :
    (s.input = [] ∧ t = s) ∨ (∃ rest, s.input = .reset :: rest ∧ t = s.takeInput.applyReset) ∨
    (∃ b rest i, s.input = .byte b :: rest ∧ s.select b = .ok i ∧ exec i s.takeInput = .next t) := by
  cases hin : s.input with
  | nil => rw [step_nil hin] at h; cases h; exact .inl ⟨rfl, rfl⟩
  | cons a rest =>
    cases a with
    | reset => rw [step_reset hin] at h; cases h; exact .inr (.inl ⟨rest, rfl, rfl⟩)
    | byte b =>
      rw [step_byte hin] at h
      obtain ⟨i, hi, he⟩ := takeByte_next h
      exact .inr (.inr ⟨b, rest, i, rfl, hi, he⟩)

/-- `decode` is the operation the frame selects (R57, R90). -/
theorem runDecoder_eq_exec (f : Frame) (s : State) : runDecoder f s = exec (selectDecoder f) s := by
  unfold runDecoder selectDecoder
  cases decoderCase f <;> rfl

/-- A decode keeps the step's event and the accumulator. -/
theorem runDecoder_keeps {f : Frame} {s t : State} (h : runDecoder f s = .next t) :
    t.out.event = s.out.event ∧ t.fill = s.fill ∧ t.acc = s.acc ∧ t.buf = s.buf ∧ t.input = s.input := by
  rcases runDecoder_cases f with h' | h' | ⟨r, _, h'⟩ <;> rw [h'] at h <;> cases h <;> exact ⟨rfl, rfl, rfl, rfl, rfl⟩

/-- What a selected operation that answers a next state did, under the condition that selected it (R56). -/
theorem exec_selected {s t : State} {b : Byte} {i : Instr} (hi : s.select b = .ok i) (h : exec i s = .next t) :
    (b = Config.sentinel ∧ i = .fSof ∧ t = afterSof s) ∨
    (b ≠ Config.sentinel ∧ s.acc = false ∧ i = .fNoise b ∧ t = s.beginOut .none [.noise b]) ∨
    (b ≠ Config.sentinel ∧ s.acc = true ∧ s.fill < Config.cap ∧
      completionTest (s.fill + 1) ((s.buf.write s.fill b).read Config.offLen) = some false ∧ i = .fAppend b ∧
      t = afterAppend b s) ∨
    (∃ f, b ≠ Config.sentinel ∧ s.acc = true ∧ s.fill < Config.cap ∧
      completionTest (s.fill + 1) ((s.buf.write s.fill b).read Config.offLen) = some true ∧ i = .fComplete b ∧
      (s.buf.write s.fill b).readFrom 0 (s.fill + 1) = some f ∧ runDecoder f (afterFrame f s) = .next t) ∨
    (∃ d, b ≠ Config.sentinel ∧ s.acc = true ∧ Config.cap ≤ s.fill ∧ i = .fOverflow b ∧
      s.buf.readFrom 0 Config.cap = some d ∧ t = s.toIdle.beginOut (.bufferOverflow d) [.overflowReport d.length d]) := by
  rcases selectFramer_cases hi with ⟨hb, rfl⟩ | ⟨hb, ha, rfl⟩ | ⟨hb, ha, hf, hc, rfl⟩ | ⟨hb, ha, hf, hc, rfl⟩ | ⟨hb, ha, hf, rfl⟩
  · cases h; exact .inl ⟨hb, rfl, rfl⟩
  · cases h; exact .inr (.inl ⟨hb, ha, rfl, rfl⟩)
  · rw [State.lenByteAfter_view] at hc
    cases (execFAppend_eq b hf).symm.trans h
    exact .inr (.inr (.inl ⟨hb, ha, hf, hc, rfl, rfl⟩))
  · rw [State.lenByteAfter_view] at hc
    cases hr : (s.buf.write s.fill b).readFrom 0 (s.fill + 1) with
    | none => simp [exec, execFComplete, State.appendByte_next b (show s.fill < Config.cap from hf), hr] at h
    | some f =>
      exact .inr (.inr (.inr (.inl ⟨f, hb, ha, hf, hc, rfl, rfl, (execFComplete_eq hf hr).symm.trans h⟩)))
  · cases hr : s.buf.readFrom 0 Config.cap with
    | none => simp [exec, execFOverflow, hr] at h
    | some d =>
      cases (execFOverflow_eq b hr).symm.trans h
      exact .inr (.inr (.inr (.inr ⟨d, hb, ha, hf, rfl, rfl, rfl⟩)))

end Sys2Proof.Machine
end

