-- ==== Sys2Proof/Laws/Stream.lean ====
section
/-! SUPPORT. Runs of a byte list and their traces, taken apart. -/

namespace Sys2Proof.Machine

/-- The step of a byte given alone is the step of that byte with no input left. -/
theorem step_given (s : State) (b : Byte) : step (s.given b) = takeByte b { s with input := [] } := rfl

theorem step_given_next {s t : State} {b : Byte} (h : step (s.given b) = .next t) :
    ∃ i, s.select b = .ok i ∧ exec i { s with input := [] } = .next t :=
  takeByte_next ((step_given s b).symm.trans h)

/-- The first byte of a run, where its operation and the run of the rest are known. -/
theorem runBytes_cons {s t : State} {b : Byte} {i : Instr} {bs : List Byte} {p : State × List TraceEntry}
    (hi : s.select b = .ok i) (h : exec i { s with input := [] } = .next t) (hp : runBytes t bs = some p) :
    runBytes s (b :: bs) = some (p.1, { op := i, out := t.out } :: p.2) := by
  have hs : step (s.given b) = .next t := (step_given s b).trans ((takeByte_ok (s := { s with input := [] }) hi).trans h)
  simp [runBytes, hi, hs, hp]

/-- A run of one list after another. -/
theorem runBytes_append {s t : State} {es : List TraceEntry} {as : List Byte} (bs : List Byte)
    (h : runBytes s as = some (t, es)) :
    runBytes s (as ++ bs) = (runBytes t bs).map fun p => (p.1, es ++ p.2) := by
  induction as generalizing s es with
  | nil => cases h; simp
  | cons a as ih =>
    simp only [List.cons_append, runBytes] at h ⊢
    split at h
    · next i u hi hu =>
      simp only [Option.map_eq_some_iff] at h
      obtain ⟨⟨q, es'⟩, hp, he⟩ := h
      cases he
      simp only [ih hp, Option.map_map]
      rfl
    all_goals cases h

theorem framesOf_append (xs ys : List TraceEntry) : framesOf (xs ++ ys) = framesOf xs ++ framesOf ys := by
  induction xs with
  | nil => rfl
  | cons e xs ih => simp only [List.cons_append, framesOf]; split <;> simp [ih]

theorem overflowsOf_append (xs ys : List TraceEntry) : overflowsOf (xs ++ ys) = overflowsOf xs ++ overflowsOf ys := by
  induction xs with
  | nil => rfl
  | cons e xs ih => simp only [List.cons_append, overflowsOf]; split <;> simp [ih]

/-- A state that holds the bytes of a frame in progress meets the invariant (R15). -/
theorem State.Inv.of_frame_in_progress {s : State} {bs : List Byte} (hbuf : s.buf = Memory.ofBytes bs 0)
    (hfill : s.fill = bs.length) (hacc : s.acc = true) (hlen : bs.length ≤ Config.cap)
    (hhead : bs[0]? = some Config.sentinel) (htail : ∀ b ∈ bs.drop 1, b ≠ Config.sentinel)
    (hinc : ∀ n, bs[2]? = some n → bs.length < n.toNat + Config.hdr)
    (hsnap : ∀ r, s.snap = some r → r.ctrlErr.toNat < 256) (hrec : s.building = Building.empty) : s.Inv where
  fill_le := hfill ▸ hlen
  idle_iff := by
    have : bs.length ≠ 0 := by intro h; rw [List.length_eq_zero_iff.mp h] at hhead; cases hhead
    simp [hacc, hfill, List.length_eq_zero_iff.not.mp this]
  header := fun _ => by rw [hbuf, ← hhead]; simpa using Memory.read_ofBytes bs 0 0
  no_sentinel := fun i hi h => by
    have hr := Memory.read_ofBytes bs 0 i
    rw [Nat.zero_add, ← hbuf, h] at hr
    obtain ⟨j, rfl⟩ : ∃ j, i = 1 + j := ⟨i - 1, by omega⟩
    rw [← List.getElem?_drop] at hr
    exact htail _ (List.mem_of_getElem? hr.symm) rfl
  incomplete := fun _ _ n hn => by
    have hr := Memory.read_ofBytes bs 0 2
    simp only [State.expectedLength, hbuf, Config.offLen, Option.map_eq_some_iff] at hn
    obtain ⟨m, hm, rfl⟩ := hn
    rw [Nat.zero_add, hm] at hr
    rw [hfill]; exact hinc m hr.symm
  cells := by rw [hbuf, hfill, Memory.cells_ofBytes, List.range_eq_range']
  ctrl_err := hsnap
  no_record := hrec

end Sys2Proof.Machine
end

