-- ==== Sys2Proof/Tests/Slice0.lean ====
section
/-! SUPPORT. Tests of one step each with results taken from the spec's vectors (95_test_vectors.md), the smoke tests of
WellFormed, the decoding of words written from the spec's encodings, and a witness for the hypotheses of every statement. -/

namespace Sys2Proof.Machine

/-! Helpers. -/

/-- `Acc(k)` of 95_test_vectors.md: a frame in progress that holds these bytes. -/
def accState (bs : List Byte) : State := { State.reset with buf := Memory.ofBytes bs 0, fill := bs.length, acc := true }

/-- The next state, where there is one. -/
def nextOf (o : Result) : Option State :=
  match o with
  | .next t => some t
  | .fault _ => none
  | .refused _ => none

/-- The step of a byte, where it has a next state. -/
def stepOn (s : State) (b : Byte) : Option State := nextOf (step (s.given b))

/-- Frame D7 of 95_test_vectors.md. -/
def frameD7 : Frame := [0x54, 0xB3, 0x0F, 0x02, 0x40, 0xE2, 0x01, 0x00, 0x07, 0x32, 0x88, 0x13, 0xDC, 0x05, 0xAA, 0xBB, 0xE0, 0x2E]

/-- Frame D10: N = 16, one more byte. -/
def frameD10 : Frame :=
  [0x54, 0xB3, 0x10, 0x02, 0x40, 0xE2, 0x01, 0x00, 0x07, 0x32, 0x88, 0x13, 0xDC, 0x05, 0xAA, 0xBB, 0xE0, 0x2E, 0x99]

/-- The snapshot of D7, D8 and D10. -/
def snapD7 : Snapshot :=
  { opState := 2, freq := 123456, ctrlErr := 7, dutyRaw := 50, vbridgeRaw := 5000, prxRaw := 1500, vinRaw := 12000 }

/-- The full buffer of F15 and F16: `54 01 n 253*(00)`. -/
def fullBytes (n : Byte) : List Byte := [0x54, 0x01, n] ++ List.replicate 253 0x00

theorem stepOn_eq {s t : State} {b : Byte} (h : stepOn s b = some t) : step (s.given b) = .next t := by
  unfold stepOn nextOf at h
  split at h
  · next u hu => cases h; exact hu
  · cases h
  · cases h

/-! WellFormed: a term each check refuses. -/

theorem test_wf_refuses_noise_sentinel : (Instr.fNoise 0x54).wf = false := by decide
theorem test_wf_refuses_append_sentinel : (Instr.fAppend 0x54).wf = false := by decide
theorem test_wf_refuses_complete_sentinel : (Instr.fComplete 0x54).wf = false := by decide
theorem test_wf_refuses_overflow_sentinel : (Instr.fOverflow 0x54).wf = false := by decide
theorem test_wf_refuses_monitor_type : (Instr.dMonitor (0x54 :: 0xB2 :: frameD7.drop 2)).wf = false := by decide
theorem test_wf_refuses_monitor_short : (Instr.dMonitor (frameD7.take 17)).wf = false := by decide
theorem test_wf_refuses_malformed_type : (Instr.dMalformed [0x54, 0xFF, 0x00]).wf = false := by decide
theorem test_wf_refuses_malformed_long : (Instr.dMalformed frameD7).wf = false := by decide
theorem test_wf_refuses_unknown_monitor : (Instr.dUnknown [0x54, 0xB3, 0x00]).wf = false := by decide
theorem test_wf_refuses_unknown_short : (Instr.dUnknown [0xFF]).wf = false := by decide
theorem test_deliverable_refuses_header : deliverable [0x55, 0xFF, 0x00] = false := by decide
theorem test_deliverable_refuses_inner_sentinel : deliverable [0x54, 0x01, 0x01, 0x54] = false := by decide
theorem test_deliverable_refuses_length : deliverable [0x54, 0x01, 0x02, 0x00] = false := by decide

/-- R6: the parameters meet their constraints. -/
theorem test_parameters_admissible : Config.admissible = true := by decide

/-! Decoding: one written word for every constructor (R51, R53, R56, R57). -/

theorem test_decode_fSof : decode (.byte FramerView.idle) [0b01010100] = .ok (.fSof, []) := by decide
theorem test_decode_fNoise : decode (.byte FramerView.idle) [0b10110011] = .ok (.fNoise 0xB3, []) := by decide
theorem test_decode_fAppend :
    decode (.byte { acc := true, fill := 2, lenByte := none }) [0b00001111] = .ok (.fAppend 0x0F, []) := by decide
theorem test_decode_fComplete :
    decode (.byte { acc := true, fill := 2, lenByte := none }) [0b00000000] = .ok (.fComplete 0x00, []) := by decide
theorem test_decode_fOverflow :
    decode (.byte { acc := true, fill := 256, lenByte := some 0xFF }) [0b00000111] = .ok (.fOverflow 0x07, []) := by decide
/-- F18: `N = 255` does not wrap to 2. -/
theorem test_decode_no_wrap :
    decode (.byte { acc := true, fill := 2, lenByte := none }) [0b11111111] = .ok (.fAppend 0xFF, []) := by decide
/-- D7. -/
theorem test_decode_dMonitor : decode .frame frameD7 = .ok (.dMonitor frameD7, []) := by decide
/-- D5, with a byte following. -/
theorem test_decode_dMalformed :
    decode .frame [0b01010100, 0b10110011, 0b00000010, 0x11, 0x22, 0x99]
      = .ok (.dMalformed [0x54, 0xB3, 0x02, 0x11, 0x22], [0x99]) := by decide
/-- D1. -/
theorem test_decode_dUnknown :
    decode .frame [0b01010100, 0b11111111, 0b00000000] = .ok (.dUnknown [0x54, 0xFF, 0x00], []) := by decide
theorem test_decode_xState : decode (.field .opState) [0b00000010] = .ok (.xState 0x02, []) := by decide
theorem test_decode_xFreq :
    decode (.field .freq) [0b01000000, 0b11100010, 0b00000001, 0b00000000] = .ok (.xFreq 0x40 0xE2 0x01 0x00, []) := by decide
theorem test_decode_xCtrlErr : decode (.field .ctrlErr) [0b00000111] = .ok (.xCtrlErr 0x07, []) := by decide
theorem test_decode_xDuty : decode (.field .duty) [0b00110010] = .ok (.xDuty 0x32, []) := by decide
theorem test_decode_xVbridge : decode (.field .vbridge) [0b10001000, 0b00010011] = .ok (.xVbridge 0x88 0x13, []) := by decide
theorem test_decode_xPrx : decode (.field .prx) [0b11011100, 0b00000101] = .ok (.xPrx 0xDC 0x05, []) := by decide
theorem test_decode_xVin : decode (.field .vin) [0b11100000, 0b00101110] = .ok (.xVin 0xE0 0x2E, []) := by decide
/-- R62: the encodings the Framer can never deliver are refused. -/
theorem test_decode_refuses_inner_sentinel : decode .frame [0x54, 0x54, 0x00] = .error .sentinelInside := by decide
theorem test_decode_refuses_too_long : decode .frame (fullBytes 0xFE) = .error .tooLong := by decide
theorem test_decode_refuses_truncated : decode .frame (frameD7.take 17) = .error .truncated := by decide
/-- Where the fields of D7 sit (R53). -/
theorem test_fields_of_D7 :
    fieldOf .opState frameD7 = .ok (.xState 0x02) ∧ fieldOf .freq frameD7 = .ok (.xFreq 0x40 0xE2 0x01 0x00) ∧
    fieldOf .ctrlErr frameD7 = .ok (.xCtrlErr 0x07) ∧ fieldOf .duty frameD7 = .ok (.xDuty 0x32) ∧
    fieldOf .vbridge frameD7 = .ok (.xVbridge 0x88 0x13) ∧ fieldOf .prx frameD7 = .ok (.xPrx 0xDC 0x05) ∧
    fieldOf .vin frameD7 = .ok (.xVin 0xE0 0x2E) := by decide

/-! Single steps (95_test_vectors.md, Part 2). -/

/-- F11: the sentinel in mid-frame. -/
theorem test_step_sof :
    (stepOn (accState [0x54, 0xB3, 0x0F, 0x02, 0x40]) 0x54).map (fun t => (t.buf, t.fill, t.acc, t.out))
      = some ([(0, 0x54)], 1, true, StepOut.quiet) := by decide
/-- F3, T1: noise. -/
theorem test_step_noise :
    (stepOn State.reset 0xB3).map (fun t => (t.fill, t.acc, t.out.event, t.out.diag)) = some (0, false, .none, [.noise 0xB3]) := by
  decide
/-- F9: an append. -/
theorem test_step_append :
    (stepOn (accState [0x54, 0x07]) 0x01).map (fun t => (t.buf, t.fill, t.acc, t.out.event))
      = some ([(0, 0x54), (1, 0x07), (2, 0x01)], 3, true, .none) := by decide
/-- F14: the last cell is filled with no overflow. -/
theorem test_step_append_last_cell :
    (stepOn (accState ([0x54, 0x01, 0xFE] ++ List.replicate 252 0x00)) 0x00).map (fun t => (t.fill, t.acc, t.out.event))
      = some (256, true, .none) := by decide +kernel
/-- T2: an unknown frame of length zero. -/
theorem test_step_complete_unknown :
    (stepOn (accState [0x54, 0xFF]) 0x00).map (fun t => (t.fill, t.acc, t.snap, t.out))
      = some (0, false, none, { event := .frameReady [0x54, 0xFF, 0x00], status := .ignored, diag := [] }) := by decide
/-- F13: the longest frame completes with no overflow. -/
theorem test_step_complete_longest :
    (stepOn (accState ([0x54, 0x01, 0xFD] ++ List.replicate 252 0x11)) 0x11).map (fun t => (t.fill, t.acc, t.out))
      = some (0, false, { event := .frameReady ([0x54, 0x01, 0xFD] ++ List.replicate 253 0x11), status := .ignored,
                          diag := [] }) := by decide +kernel
/-- T5: overflow. -/
theorem test_step_overflow :
    (stepOn (accState (fullBytes 0xFF)) 0x07).map (fun t => (t.buf, t.fill, t.acc, t.out))
      = some ([], 0, false, { event := .bufferOverflow (fullBytes 0xFF), status := .noFrame,
                              diag := [.overflowReport 256 (fullBytes 0xFF)] }) := by decide +kernel
/-- F16: the sentinel on a full buffer. -/
theorem test_step_sof_on_full_buffer :
    (stepOn (accState (fullBytes 0xFF)) 0x54).map (fun t => (t.fill, t.acc, t.out)) = some (1, true, StepOut.quiet) := by
  decide +kernel
/-- T3: a malformed frame. -/
theorem test_step_malformed :
    (stepOn (accState [0x54, 0xB3]) 0x00).map (fun t => (t.fill, t.snapValid, t.out))
      = some (0, false, { event := .frameReady [0x54, 0xB3, 0x00], status := .malformed, diag := [.decodeError [0x54, 0xB3, 0x00]] }) := by
  decide
/-- T4: a monitor frame. -/
theorem test_step_monitor :
    (stepOn (accState (frameD7.take 17)) 0x2E).map (fun t => (t.fill, t.snap, t.out.status)) = some (0, some snapD7, .updated snapD7) := by
  decide
/-- D10: a longer monitor frame. -/
theorem test_step_monitor_long : (stepOn (accState (frameD10.take 18)) 0x99).map (·.snap) = some (some snapD7) := by decide
/-- D12, D13: direct calls. -/
theorem test_decode_direct :
    selectDecoder [0xB3] = .dMalformed [0xB3] ∧
    (nextOf (exec (.dMonitor (0x00 :: frameD7.drop 1)) State.reset)).map (·.snap) = some (some snapD7) := by decide
/-- X10. -/
theorem test_xState : (nextOf (exec (.xState 0x7F) State.reset)).map (·.building.opState) = some (some 127) := by decide
/-- X5, X7. -/
theorem test_xFreq :
    (nextOf (exec (.xFreq 0x00 0x00 0x00 0x01) State.reset)).map (·.building.freq) = some (some 16777216) ∧
    (nextOf (exec (.xFreq 0x00 0x00 0x00 0x80) State.reset)).map (·.building.freq) = some (some 2147483648) := by decide
/-- X13. -/
theorem test_xCtrlErr : (nextOf (exec (.xCtrlErr 0x80) State.reset)).map (·.building.ctrlErr) = some (some 128) := by decide
/-- X19: not clamped. -/
theorem test_xDuty : (nextOf (exec (.xDuty 0x65) State.reset)).map (·.building.dutyRaw) = some (some 101) := by decide
/-- X26: the bytes swapped. -/
theorem test_xVbridge : (nextOf (exec (.xVbridge 0x13 0x88) State.reset)).map (·.building.vbridgeRaw) = some (some 34835) := by decide
/-- X23. -/
theorem test_xPrx : (nextOf (exec (.xPrx 0x00 0x01) State.reset)).map (·.building.prxRaw) = some (some 256) := by decide
/-- X27: not negative. -/
theorem test_xVin : (nextOf (exec (.xVin 0x00 0x80) State.reset)).map (·.building.vinRaw) = some (some 32768) := by decide
/-- X17, X25, D7: the exact quotients 1/2, 5, 3/2 and 12. -/
theorem test_values_of_D7 : snapD7.duty = 1 / 2 ∧ snapD7.vbridge = 5 ∧ snapD7.prx = 3 / 2 ∧ snapD7.vin = 12 := by
  simp only [Snapshot.duty, Snapshot.vbridge, Snapshot.prx, Snapshot.vin, scaled, Config.fracRender, Config.dutyDiv,
    Config.milliDiv, snapD7]
  refine ⟨?_, ?_, ?_, ?_⟩
  · show ((50 : Nat) : Rat) / _ = _
    norm_num
  · show ((5000 : Nat) : Rat) / _ = _
    norm_num
  · show ((1500 : Nat) : Rat) / _ = _
    norm_num
  · show ((12000 : Nat) : Rat) / _ = _
    norm_num
/-- R139: the codes of an overflow and of a malformed frame. -/
theorem test_signal_codes :
    (stepOn (accState [0x54, 0xB3]) 0x00).map (fun t => (t.signals.evCode, t.signals.frameLen, t.signals.dsCode)) = some (1, 3, 3) ∧
    (FrameEvent.bufferOverflow []).code = 2 ∧ DecodeStatus.ignored.code = 2 := by decide

/-! Witnesses: the hypotheses of the statements are met. -/

/-- A frame in progress that meets the invariant (vector F5's state). -/
theorem witness_inv_one_byte : (accState [0x54]).Inv :=
  .of_frame_in_progress rfl rfl rfl (by decide) rfl (by decide) (fun n h => by cases h) (fun r h => by cases h) rfl

/-- Two bytes of a frame (F6, F8, T2). -/
theorem witness_inv_two_bytes (t : Byte) (h : t ≠ 0x54) : (accState [0x54, t]).Inv :=
  .of_frame_in_progress rfl rfl rfl (by simp [Config.cap]) rfl (by simpa [Config.sentinel] using h) (fun n h => by cases h)
    (fun r h => by cases h) rfl

/-- The full buffer meets the invariant (F15). -/
theorem witness_inv_full : (accState (fullBytes 0xFF)).Inv :=
  .of_frame_in_progress rfl rfl rfl (by decide +kernel) rfl (by decide +kernel)
    (fun n h => by cases h; decide +kernel) (fun r h => by cases h) rfl

theorem witness_inv_full_fill : (accState (fullBytes 0xFF)).Inv ∧ (accState (fullBytes 0xFF)).fill = 256 :=
  ⟨witness_inv_full, by decide +kernel⟩

theorem witness_ByteStepRunsSelectedOperation :
    (State.reset.given 0x54).input = .byte 0x54 :: [] ∧ decode (.byte (State.reset.given 0x54).view) [0x54] = .ok (.fSof, []) := by
  decide

theorem witness_CoreHoldsItsStateWithoutInput : State.reset.input = [] := rfl

theorem witness_ResetGivesInitialStateSilently :
    ({ accState [0x54] with input := [.reset] } : State).input = .reset :: [] := rfl

theorem witness_ByteRunIsTheMachinesRun : (runBytes State.reset [0x54, 0xFF, 0x00]).isSome = true := by decide

theorem witness_PlacedTableWordRuns :
    decodeTableWord 8 0x54 = some .fSof ∧ decodeTableWord 8 0x00 = some (.fNoise 0x00) ∧
    decodeTableWord 24 0x54B300 = some (.dMalformed [0x54, 0xB3, 0x00]) ∧
    decodeTableWord 24 0x54FF00 = some (.dUnknown [0x54, 0xFF, 0x00]) ∧
    decodeTableWord 24 0x54B30F = some (.dMonitor ([0x54, 0xB3, 0x0F] ++ List.replicate 15 0x00)) := by decide

/-- A state for each clause, at the values where clauses meet. -/
theorem witness_FramerSelectionFollowsTheMap :
    ((0x00 : Byte) ≠ 0x54 ∧ State.reset.acc = false) ∧
    ((accState [0x54]).acc = true ∧ (accState [0x54]).fill + 1 < 3) ∧
    ((accState [0x54, 0x07]).fill + 1 = 3 ∧ ((accState [0x54, 0x07]).buf.write 2 0x01).read 2 = some 0x01) ∧
    ((accState [0x54, 0xB3]).fill + 1 = 3 ∧ ((accState [0x54, 0xB3]).buf.write 2 0x00).read 2 = some 0x00) ∧
    ((accState (fullBytes 0xFF)).acc = true ∧ (accState (fullBytes 0xFF)).fill = 256) := by decide +kernel

theorem witness_DecoderSelectionFollowsTheMap :
    ([0x54] : Frame).length < 2 ∧ ([0x54, 0xFF] : Frame)[1]? = some 0xFF ∧
    ((frameD7.take 17)[1]? = some 0xB3 ∧ (frameD7.take 17).length = 17) ∧ (frameD7[1]? = some 0xB3 ∧ frameD7.length = 18) := by
  decide

theorem witness_DecodeOfEncodeIsTheOperation :
    ((Instr.fOverflow 0x00).wf = true ∧ admits (.byte { acc := true, fill := 256, lenByte := some 0xFF }) (.fOverflow 0x00) = true) ∧
    ((Instr.dMonitor frameD7).wf = true ∧ admits .frame (.dMonitor frameD7) = true) ∧
    ((Instr.xVin 0xE0 0x2E).wf = true ∧ admits (.field .vin) (.xVin 0xE0 0x2E) = true) := by decide

theorem witness_DecodedBytesAreTheEncoding :
    decode .frame [0x54, 0xFF, 0x00, 0x01] = .ok (.dUnknown [0x54, 0xFF, 0x00], [0x01]) := by decide

theorem witness_NoisePassesThrough : (0xB3 : Byte) ≠ 0x54 ∧ State.reset.acc = false := by decide

/-- The last cell is the boundary. -/
theorem witness_AppendStoresTheByteAtFill : (accState ([0x54, 0x01, 0xFE] ++ List.replicate 252 0x00)).fill = 255 := by
  decide +kernel

theorem witness_CompleteDeliversAndDecodesTheFrame :
    (accState [0x54, 0xB3]).fill < 256 ∧ ∀ i, i < (accState [0x54, 0xB3]).fill → ((accState [0x54, 0xB3]).buf.read i).isSome := by
  decide

theorem witness_OverflowReportsAndResets : ∀ i, i < 256 → ((accState (fullBytes 0xFF)).buf.read i).isSome := by
  decide +kernel

theorem witness_ClearedCellsHoldNoValue :
    (nextOf (exec .fSof State.reset)).isSome = true ∧ (nextOf (exec (.fComplete 0x00) (accState [0x54, 0xB3]))).isSome = true ∧
    (nextOf (exec (.fOverflow 0x00) (accState (fullBytes 0xFF)))).isSome = true := by decide +kernel

theorem witness_OutOfRangeBufferAccessStops :
    256 ≤ ({ State.reset with fill := 256 } : State).fill ∧
    (({ State.reset with fill := 1 } : State).fill < 256 ∧ ({ State.reset with fill := 1 } : State).buf.read 0 = none) ∧
    State.reset.buf.read 255 = none := by decide

theorem witness_UnknownTypeIsIgnored : ([0x54, 0xFF, 0x00] : Frame)[1]? = some 0xFF ∧ (0xFF : Byte) ≠ 0xB3 := by decide

theorem witness_MalformedFrameIsReported : (frameD7.take 17)[1]? = some 0xB3 ∧ (frameD7.take 17).length < 18 := by decide

theorem witness_MonitorNeverReadsPastTheFrame : (frameD7.take 17).length < 18 := by decide

/-- The frame MonitorIsTheSevenExtractions and MultiByteFieldsAreLittleEndianReads speak of. -/
theorem witness_longEnoughFrame : 18 ≤ frameD7.length := by decide

/-- D8, D10: frames that differ at offsets 2, 14, 15 and in length. -/
theorem witness_UndecodedBytesDoNotMatter :
    18 ≤ frameD7.length ∧ 18 ≤ frameD10.length ∧ frameD7 ≠ frameD10 ∧
    ∀ i, i < 18 → 3 ≤ i → i ≠ 14 → i ≠ 15 → frameD7[i]? = frameD10[i]? := by decide

theorem witness_MonitorIsTheSevenExtractions : 18 ≤ frameD7.length := witness_longEnoughFrame

theorem witness_MultiByteFieldsAreLittleEndianReads : 18 ≤ frameD7.length := witness_longEnoughFrame

/-- The operands of the seven field statements. -/
theorem witness_fieldOperands :
    frameD7[3]? = some 0x02 ∧ (frameD7[4]? = some 0x40 ∧ frameD7[5]? = some 0xE2 ∧ frameD7[6]? = some 0x01 ∧ frameD7[7]? = some 0x00) ∧
    frameD7[8]? = some 0x07 ∧ frameD7[9]? = some 0x32 ∧ (frameD7[10]? = some 0x88 ∧ frameD7[11]? = some 0x13) ∧
    (frameD7[12]? = some 0xDC ∧ frameD7[13]? = some 0x05) ∧ (frameD7[16]? = some 0xE0 ∧ frameD7[17]? = some 0x2E) := by decide

/-- X30's field: bit 28 is bit 4 of the byte at offset 7. -/
theorem witness_FieldBitsComeFromTheirByte :
    memRead [0x54, 0xB3, 0x0F, 0x00, 0x78, 0x56, 0x34, 0x12] 4 4 = some 0x12345678 ∧ 31 < 8 * 4 := by decide

theorem witness_StepKeepsTheInvariant : ((accState [0x54]).given 0xB3).Inv ∧ ∃ t, step ((accState [0x54]).given 0xB3) = .next t :=
  ⟨.of_frame_in_progress (bs := [0x54]) rfl rfl rfl (by decide) rfl (by decide) (fun n h => by cases h) (fun r h => by cases h) rfl,
    _, rfl⟩

theorem witness_StepKeepsTheBufferCanonical :
    ((accState [0x54]).given 0xB3).buf.wf = true ∧ ∃ t, step ((accState [0x54]).given 0xB3) = .next t :=
  ⟨by decide, _, rfl⟩

theorem witness_StepFollowsTheTransitionTable :
    (accState [0x54]).Inv ∧ ((accState [0x54]).acc = true ∧ (accState [0x54]).fill < 256 ∧ (accState [0x54]).fill + 1 < 3) ∧
    (accState [0x54, 0xB3]).Inv ∧ ((accState [0x54, 0xB3]).buf.write 2 0x00).read 2 = some 0x00 ∧
    (accState (fullBytes 0xFF)).Inv ∧ (accState (fullBytes 0xFF)).fill = 256 :=
  ⟨witness_inv_one_byte, by decide, witness_inv_two_bytes _ (by decide), by decide, witness_inv_full, by decide +kernel⟩

theorem witness_AccChangesOnlyAtFrameBoundaries :
    ((nextOf (exec .fSof State.reset)).map (·.acc) = some true ∧ State.reset.acc = false) ∧
    ((nextOf (exec (.fComplete 0x00) (accState [0x54, 0xB3]))).map (·.acc) = some false ∧ (accState [0x54, 0xB3]).acc = true) := by
  decide

theorem witness_OwnershipIsExclusive :
    (nextOf (exec (.fComplete 0x2E) (accState (frameD7.take 17)))).isSome = true ∧
    (nextOf (exec (.dMonitor frameD7) (accState [0x54]))).isSome = true := by decide

/-- A step of each kind the clauses of SnapshotChangesOnlyOnUpdated and StepOutputsAreOneOfTheListedCases speak of. -/
theorem witness_byteSteps :
    (∃ t, step (State.reset.given 0x41) = .next t ∧ t.out.status = .noFrame) ∧
    (∃ t, step ((accState (frameD7.take 17)).given 0x2E) = .next t ∧ t.out.status = .updated snapD7) ∧
    (∃ t, step (({ State.reset with snap := some snapD7 } : State).given 0x41) = .next t ∧
      ({ State.reset with snap := some snapD7 } : State).snapValid = true) :=
  ⟨⟨_, rfl, rfl⟩, ⟨_, rfl, rfl⟩, ⟨_, rfl, rfl⟩⟩

theorem witness_EveryByteSelectsAnOperation : (accState [0x54]).Inv := witness_inv_one_byte

theorem witness_StepNeverStops : (accState (fullBytes 0xFF)).Inv := witness_inv_full

theorem witness_FullBufferDeclares254Or255 : (accState (fullBytes 0xFF)).Inv ∧ (accState (fullBytes 0xFF)).fill = 256 :=
  witness_inv_full_fill

theorem witness_AccumulatorIsInitialAfterAnEvent :
    ∃ t, step ((accState [0x54, 0xFF]).given 0x00) = .next t ∧ t.out.event ≠ .none :=
  ⟨_, rfl, fun h => by cases h⟩

theorem witness_MalformedOnlyForShortMonitorFrames :
    (accState [0x54, 0xB3]).Inv ∧ ∃ t, step ((accState [0x54, 0xB3]).given 0x00) = .next t ∧ t.out.status = .malformed :=
  ⟨witness_inv_two_bytes _ (by decide), _, rfl, rfl⟩

theorem witness_DeliveredFramesAreWellFormed :
    (accState [0x54, 0xFF]).Inv ∧ ∃ t, step ((accState [0x54, 0xFF]).given 0x00) = .next t ∧
      t.out.event = .frameReady [0x54, 0xFF, 0x00] ∧ t.out.event ≠ .none :=
  ⟨witness_inv_two_bytes _ (by decide), _, rfl, rfl, fun h => by cases h⟩

theorem witness_OverflowOnlyForOversizedFrames :
    (accState (fullBytes 0xFF)).Inv ∧
    (stepOn (accState (fullBytes 0xFF)) 0x07).map (·.out.event) = some (.bufferOverflow (fullBytes 0xFF)) :=
  ⟨witness_inv_full, by decide +kernel⟩

/-- Two different states with the same accumulator. -/
theorem witness_StepDependsOnTheAccumulatorAlone :
    (accState [0x54]).Inv ∧ ({ accState [0x54] with snap := some snapD7 } : State).Inv ∧
    (accState [0x54]).sameAccumulator { accState [0x54] with snap := some snapD7 } ∧
    accState [0x54] ≠ { accState [0x54] with snap := some snapD7 } :=
  ⟨witness_inv_one_byte,
    .of_frame_in_progress (bs := [0x54]) rfl rfl rfl (by decide) rfl (by decide) (fun n h => by cases h)
      (fun r h => by cases h; decide) rfl,
    ⟨rfl, rfl, fun _ _ => rfl⟩, by decide⟩

theorem witness_SentinelForgetsHistory : (accState [0x54]).Inv ∧ (accState [0x54, 0xB3]).Inv :=
  ⟨witness_inv_one_byte, witness_inv_two_bytes _ (by decide)⟩

theorem witness_NoiseIsPassedThroughInOrder : State.reset.acc = false ∧ ∀ b ∈ ([0x00, 0xFF, 0xB3] : List Byte), b ≠ 0x54 := by
  decide

/-- S2's frame, and the longest one (F13). -/
theorem witness_DeliverableFrameIsDelivered :
    deliverable [0x54, 0xFF, 0x00] = true ∧ deliverable ([0x54, 0x01, 0xFD] ++ List.replicate 253 0x11) = true := by
  decide +kernel

theorem witness_CoreSynchronisesOnAnyStream : (accState [0x54]).Inv ∧ deliverable [0x54, 0xFF, 0x00] = true :=
  ⟨witness_inv_one_byte, by decide⟩

/-- D7 is the monitor frame of its fields, and holds no inner sentinel. -/
theorem witness_MonitorStreamRoundTrip :
    monitorOf 2 123456 7 50 5000 1500 0xAA 0xBB 12000 = frameD7 ∧
    ∀ b ∈ (monitorOf 2 123456 7 50 5000 1500 0xAA 0xBB 12000).drop 1, b ≠ 0x54 := by decide

theorem witness_ZeroLengthFrameCompletesAtThreeBytes : (0xB3 : Byte) ≠ 0x54 ∧ (0xFF : Byte) ≠ 0x54 ∧ (0xFF : Byte) ≠ 0xB3 := by
  decide

/-- 253 bytes after the header give no overflow yet, 254 give it. -/
theorem witness_OversizedFrameOverflowsExactlyOnce :
    (0x01 : Byte) ≠ 0x54 ∧ ((0xFE : Byte) = 254 ∨ (0xFE : Byte) = 255) ∧
    (∀ b ∈ List.replicate 253 (0x00 : Byte), b ≠ 0x54) ∧ (List.replicate 253 (0x00 : Byte)).length ≤ 253 ∧
    (∀ b ∈ List.replicate 254 (0x00 : Byte), b ≠ 0x54) ∧ 253 < (List.replicate 254 (0x00 : Byte)).length := by decide +kernel

end Sys2Proof.Machine
end

section
/-! What the Framer's operations and the Decoder do from any state, without the condition that selects them (R71 to R76,
R90): the rules the statements of this family are proved by. -/

namespace Sys2Proof.Machine

/-! The Framer. -/

@[simp] theorem afterSof_buf (s : State) : (afterSof s).buf = [(0, Config.sentinel)] := rfl

@[simp] theorem afterAppend_buf (b : Byte) (s : State) : (afterAppend b s).buf = s.buf.write s.fill b := rfl
@[simp] theorem afterAppend_fill (b : Byte) (s : State) : (afterAppend b s).fill = s.fill + 1 := rfl
@[simp] theorem afterAppend_acc (b : Byte) (s : State) : (afterAppend b s).acc = s.acc := rfl

/-- An append that answers a next state found a free cell (R73). -/
theorem execFAppend_next {s t : State} {b : Byte} (h : execFAppend b s = .next t) :
    s.fill < Config.cap ∧ t = afterAppend b s := by
  by_cases hf : s.fill < Config.cap
  · rw [execFAppend_eq b hf] at h
    cases h
    exact ⟨hf, rfl⟩
  · rw [execFAppend, State.appendByte_fault b hf] at h
    cases h

/-- A completion that answers a next state is the decode of some frame from the reset accumulator (R75). -/
theorem execFComplete_next {s t : State} {b : Byte} (h : execFComplete b s = .next t) :
    ∃ f, runDecoder f (afterFrame f s) = .next t := by
  by_cases hf : s.fill < Config.cap
  · cases hr : (s.buf.write s.fill b).readFrom 0 (s.fill + 1) with
    | none => simp [execFComplete, State.appendByte_next b hf, hr] at h
    | some f => exact ⟨f, (execFComplete_eq hf hr).symm.trans h⟩
  · rw [execFComplete, State.appendByte_fault b hf] at h
    cases h

/-- An overflow that answers a next state reported some bytes and reset the accumulator (R76). -/
theorem execFOverflow_next {s t : State} {b : Byte} (h : execFOverflow b s = .next t) :
    ∃ d, t = s.toIdle.beginOut (.bufferOverflow d) [.overflowReport d.length d] := by
  cases hr : s.buf.readFrom 0 Config.cap with
  | none => simp [execFOverflow, hr] at h
  | some d =>
    rw [execFOverflow_eq b hr] at h
    cases h
    exact ⟨d, rfl⟩

/-- Where the completion test says no, the frame is shorter than its length byte declares (R74). -/
theorem lt_of_completionTest_false {k : Nat} {n : Byte} (h : completionTest k (some n) = some false)
    (hk : Config.hdr ≤ k) : k < n.toNat + Config.hdr := by
  simpa [completionTest, Nat.not_lt.mpr hk] using h

/-! The Decoder. -/

/-- A load that goes on found a byte in the frame (R34). -/
theorem loadByte_eq_next {f : Frame} {off : Nat} {k : Byte → Result} {t : State} :
    loadByte f off k = .next t ↔ ∃ b, f[off]? = some b ∧ k b = .next t := by
  cases hb : f[off]? <;> simp [loadByte, hb]

/-- `D.MONITOR` answers a next state only for a frame that has the last offset it loads (R34, R93). -/
theorem length_of_execDMonitor_next {f : Frame} {s t : State} (h : execDMonitor f s = .next t) :
    Config.monMinLen ≤ f.length := by
  obtain ⟨_, hx, _⟩ := andThen_eq_next.mp h
  simp only [extractAll, andThen_eq_next, loadByte_eq_next] at hx
  obtain ⟨_, _, _, _, _, _, _, _, _, _, _, _, _, _, _, hlast, _⟩ := hx
  exact (List.getElem?_eq_some_iff.mp hlast).1

/-- The monitor case is that of a frame of the monitor type (R57). -/
theorem type_of_decoderCase_monitor {f : Frame} (h : decoderCase f = .monitor) :
    f[Config.offType]? = some Config.monitorType := by
  by_contra hty
  simp only [decoderCase, ne_eq, hty, not_false_eq_true, if_true] at h
  split at h <;> cases h

/-- What a decode does to the snapshot: nothing without the status `Updated`; with it the status's record is stored, and
the frame is a long enough monitor frame (R18, R93). -/
theorem runDecoder_snap {f : Frame} {s t : State} (h : runDecoder f s = .next t) :
    ((∀ r, t.out.status ≠ .updated r) ∧ t.snap = s.snap) ∨
    (∃ r, t.out.status = .updated r ∧ t.snap = some r ∧ f[Config.offType]? = some Config.monitorType ∧
      Config.monMinLen ≤ f.length) := by
  unfold runDecoder at h
  cases hc : decoderCase f <;> rw [hc] at h
  case malformed => cases h; exact .inl ⟨fun _ => nofun, rfl⟩
  case unknown => cases h; exact .inl ⟨fun _ => nofun, rfl⟩
  case monitor =>
    have hlen := decoderCase_monitor hc
    obtain ⟨r, _, hr⟩ := execDMonitor_next hlen
    cases (hr s).symm.trans h
    exact .inr ⟨r, rfl, rfl, type_of_decoderCase_monitor hc, hlen⟩

/-! Who owns what (R10, R18, R26). -/

/-- The five operations of the Framer, which owns the accumulator (R10, R56). -/
def ownsAccumulator : Instr → Bool
  | .fSof | .fNoise _ | .fAppend _ | .fComplete _ | .fOverflow _ => true
  | _ => false

/-- The two operations that may store the snapshot: `D.MONITOR` (R18), and `F.COMPLETE`, which may run it (R125). -/
def maySetSnapshot : Instr → Bool
  | .fComplete _ | .dMonitor _ => true
  | _ => false

/-- An operation of the Decoder, or an extraction, leaves the accumulator alone (R10, R26). -/
theorem exec_keeps_accumulator {i : Instr} {s t : State} (hi : ownsAccumulator i = false) (h : exec i s = .next t) :
    t.buf = s.buf ∧ t.fill = s.fill ∧ t.acc = s.acc := by
  cases i with
  | fSof | fNoise | fAppend | fComplete | fOverflow => cases hi
  | dMonitor f =>
    obtain ⟨r, _, hr⟩ := execDMonitor_next (length_of_execDMonitor_next h)
    cases (hr s).symm.trans h
    exact ⟨rfl, rfl, rfl⟩
  | dMalformed | dUnknown | xState | xFreq | xCtrlErr | xDuty | xVbridge | xPrx | xVin =>
    cases h
    exact ⟨rfl, rfl, rfl⟩

/-- Every other operation leaves the snapshot alone (R18). -/
theorem exec_keeps_snapshot {i : Instr} {s t : State} (hi : maySetSnapshot i = false) (h : exec i s = .next t) :
    t.snap = s.snap := by
  cases i with
  | fComplete | dMonitor => cases hi
  | fAppend b =>
    obtain ⟨_, rfl⟩ := execFAppend_next h
    rfl
  | fOverflow b =>
    obtain ⟨_, rfl⟩ := execFOverflow_next (b := b) h
    rfl
  | fSof | fNoise | dMalformed | dUnknown | xState | xFreq | xCtrlErr | xDuty | xVbridge | xPrx | xVin =>
    cases h
    rfl

/-- A completed frame leaves the snapshot alone or stores the record of the status `Updated` (R18, R75). -/
theorem execFComplete_snap {b : Byte} {s t : State} (h : execFComplete b s = .next t) :
    t.snap = s.snap ∨ ∃ r, t.out.status = .updated r ∧ t.snap = some r := by
  obtain ⟨f, hf⟩ := execFComplete_next h
  rcases runDecoder_snap hf with ⟨_, hsnap⟩ | ⟨r, hst, hsnap, _⟩
  · exact .inl hsnap
  · exact .inr ⟨r, hst, hsnap⟩

/-- A completed frame leaves the accumulator reset (R75). -/
theorem execFComplete_accumulator {b : Byte} {s t : State} (h : execFComplete b s = .next t) :
    t.buf = [] ∧ t.acc = false := by
  obtain ⟨_, hf⟩ := execFComplete_next h
  obtain ⟨_, _, hacc, hbuf, _⟩ := runDecoder_keeps hf
  exact ⟨hbuf, hacc⟩

/-- What an operation leaves in `ACC`, and which operations set it (R13). -/
theorem exec_acc {i : Instr} {s t : State} (h : exec i s = .next t) :
    (i = .fSof ∧ t.acc = true) ∨ ((∃ b, i = .fComplete b ∨ i = .fOverflow b) ∧ t.acc = false) ∨ t.acc = s.acc := by
  cases i with
  | fSof => cases h; exact .inl ⟨rfl, rfl⟩
  | fNoise b => cases h; exact .inr (.inr rfl)
  | fAppend b =>
    obtain ⟨_, rfl⟩ := execFAppend_next h
    exact .inr (.inr rfl)
  | fComplete b => exact .inr (.inl ⟨⟨b, .inl rfl⟩, (execFComplete_accumulator h).2⟩)
  | fOverflow b =>
    obtain ⟨_, rfl⟩ := execFOverflow_next (b := b) h
    exact .inr (.inl ⟨⟨b, .inr rfl⟩, rfl⟩)
  | dMonitor | dMalformed | dUnknown | xState | xFreq | xCtrlErr | xDuty | xVbridge | xPrx | xVin =>
    obtain ⟨_, _, hacc⟩ := exec_keeps_accumulator rfl h
    exact .inr (.inr hacc)

/-- The snapshot after a selected operation: as before without the status `Updated`; with it the status's record, and the
operation delivered a long enough monitor frame (R18, R125). -/
theorem exec_selected_snap {s t : State} {b : Byte} {i : Instr} (hi : s.select b = .ok i) (h : exec i s = .next t) :
    ((∀ r, t.out.status ≠ .updated r) ∧ t.snap = s.snap) ∨
    (∃ r f, t.out.status = .updated r ∧ t.snap = some r ∧ t.out.event = .frameReady f ∧
      f[Config.offType]? = some Config.monitorType ∧ Config.monMinLen ≤ f.length) := by
  rcases exec_selected hi h with ⟨_, _, rfl⟩ | ⟨_, _, _, rfl⟩ | ⟨_, _, _, _, _, rfl⟩ | ⟨f, _, _, _, _, _, _, hf⟩ |
    ⟨d, _, _, _, _, _, rfl⟩
  case inr.inr.inr.inl =>
    rcases runDecoder_snap hf with hkept | ⟨r, hst, hsnap, hty, hlen⟩
    · exact .inl hkept
    · exact .inr ⟨r, f, hst, hsnap, (runDecoder_keeps hf).1, hty, hlen⟩
  all_goals exact .inl ⟨fun _ => nofun, rfl⟩

end Sys2Proof.Machine
end

section
/-! The invariant of R15: the states that meet it, and that each operation a byte selects keeps it (R130). -/

namespace Sys2Proof.Machine

/-- The invariant speaks of no pending input and no output. -/
theorem State.Inv.of_same_core {s t : State} (h : s.Inv) (hbuf : t.buf = s.buf) (hfill : t.fill = s.fill)
    (hacc : t.acc = s.acc) (hsnap : t.snap = s.snap) (hrec : t.building = s.building) : t.Inv := by
  obtain ⟨buf, fill, acc, snap, building, input, out⟩ := t
  subst hbuf hfill hacc hsnap hrec
  exact { h with }

/-- A reset accumulator meets the invariant (R21). -/
theorem State.Inv.of_idle {s : State} (hbuf : s.buf = []) (hfill : s.fill = 0) (hacc : s.acc = false)
    (hsnap : ∀ r, s.snap = some r → r.ctrlErr.toNat < 256) (hrec : s.building = Building.empty) : s.Inv where
  fill_le := by simp [hfill]
  idle_iff := by simp [hacc, hfill]
  header := by simp [hacc]
  no_sentinel := by simp [hbuf]
  incomplete := by simp [hacc]
  cells := by simp [hbuf, hfill]
  ctrl_err := hsnap
  no_record := hrec

theorem State.reset_inv : State.reset.Inv := .of_idle rfl rfl rfl nofun rfl

theorem State.applyReset_inv (s : State) : s.applyReset.Inv := .of_idle rfl rfl rfl nofun rfl

/-- The sentinel starts a frame in progress of one byte (R71). -/
theorem afterSof_inv {s : State} (h : s.Inv) : (afterSof s).Inv :=
  .of_frame_in_progress (bs := [Config.sentinel]) rfl rfl rfl (by decide) rfl nofun nofun h.ctrl_err h.no_record

/-- A completed frame leaves a reset accumulator, whatever it delivers (R75). -/
theorem afterFrame_inv {s : State} (f : Frame) (h : s.Inv) : (afterFrame f s).Inv :=
  .of_idle rfl rfl rfl h.ctrl_err h.no_record

/-- A frame in progress holds at least its header byte (I-b). -/
theorem State.Inv.fill_pos {s : State} (h : s.Inv) (hacc : s.acc = true) : 0 < s.fill := by
  have hne : s.fill ≠ 0 := fun h0 => by simp [h.idle_iff.mpr h0] at hacc
  omega

/-- An append that does not complete the frame keeps the invariant (R73, R74). -/
theorem afterAppend_inv {s : State} {b : Byte} (h : s.Inv) (hb : b ≠ Config.sentinel) (hacc : s.acc = true)
    (hf : s.fill < Config.cap)
    (hc : completionTest (s.fill + 1) ((s.buf.write s.fill b).read Config.offLen) = some false) :
    (afterAppend b s).Inv where
  fill_le := hf
  idle_iff := by simp [hacc]
  header := fun _ => by
    have hpos := h.fill_pos hacc
    rw [afterAppend_buf, Memory.read_write_other _ _ (by omega), h.header hacc]
  no_sentinel := fun i hi => by
    rw [afterAppend_buf]
    by_cases hif : i = s.fill
    · simpa [hif] using hb
    · rw [Memory.read_write_other _ _ hif]
      exact h.no_sentinel i hi
  incomplete := fun _ hk n hn => by
    obtain ⟨m, hm, rfl⟩ := Option.map_eq_some_iff.mp hn
    rw [afterAppend_buf] at hm
    rw [hm] at hc
    exact lt_of_completionTest_false hc hk
  cells := Memory.cells_write b h.cells
  ctrl_err := h.ctrl_err
  no_record := h.no_record

/-- A decode keeps the invariant: a record it stores has `ctrl_err` zero-extended (R93, R110). -/
theorem runDecoder_inv {f : Frame} {s t : State} (hs : s.Inv) (h : runDecoder f s = .next t) : t.Inv := by
  rcases runDecoder_cases f with hd | hd | ⟨r, hr, hd⟩
  · cases (hd s).symm.trans h
    exact hs.of_same_core rfl rfl rfl rfl rfl
  · cases (hd s).symm.trans h
    exact hs.of_same_core rfl rfl rfl rfl rfl
  · cases (hd s).symm.trans h
    exact { hs with
      ctrl_err := fun q hq => by cases hq; exact hr
      no_record := rfl }

/-- The operation a byte selects keeps the invariant (R56, R130). -/
theorem exec_selected_inv {s t : State} {b : Byte} {i : Instr} (hs : s.Inv) (hi : s.select b = .ok i)
    (h : exec i s = .next t) : t.Inv := by
  rcases exec_selected hi h with ⟨_, _, rfl⟩ | ⟨_, _, _, rfl⟩ | ⟨hb, hacc, hf, hc, _, rfl⟩ | ⟨f, _, _, _, _, _, _, hf⟩ |
    ⟨d, _, _, _, _, _, rfl⟩
  · exact afterSof_inv hs
  · exact hs.of_same_core rfl rfl rfl rfl rfl
  · exact afterAppend_inv hs hb hacc hf hc
  · exact runDecoder_inv (afterFrame_inv f hs) hf
  · exact .of_idle rfl rfl rfl hs.ctrl_err hs.no_record

/-- Every step keeps the invariant (R130). -/
theorem step_inv {s t : State} (hs : s.Inv) (h : step s = .next t) : t.Inv := by
  rcases step_next h with ⟨_, rfl⟩ | ⟨_, _, rfl⟩ | ⟨b, _, i, _, hi, he⟩
  · exact hs
  · exact State.applyReset_inv _
  · have htaken : s.takeInput.Inv := hs.of_same_core rfl rfl rfl rfl rfl
    exact exec_selected_inv htaken ((State.takeInput_select s b).trans hi) he

/-- The operation a byte selects keeps the buffer's canonical form (R11, R14). -/
theorem exec_selected_wf {s t : State} {b : Byte} {i : Instr} (hs : s.buf.wf = true) (hi : s.select b = .ok i)
    (h : exec i s = .next t) : t.buf.wf = true := by
  rcases exec_selected hi h with ⟨_, _, rfl⟩ | ⟨_, _, _, rfl⟩ | ⟨_, _, hf, _, _, rfl⟩ | ⟨f, _, _, _, _, _, _, hf⟩ |
    ⟨d, _, _, _, _, _, rfl⟩
  · exact Memory.wf_ofBytes (bs := [Config.sentinel]) (by decide)
  · exact hs
  · exact Memory.wf_write b hs hf
  · obtain ⟨_, _, _, hbuf, _⟩ := runDecoder_keeps hf
    rw [hbuf]
    exact Memory.wf_nil
  · exact Memory.wf_nil

end Sys2Proof.Machine
end

section
/-! The statements about the state (10_state.md), settled. -/

namespace Sys2Proof.Machine

/-- Settles O37: each kind of step keeps the invariant. -/
theorem stepKeepsTheInvariant : Obligations.StepKeepsTheInvariant := by
  unfold Obligations.StepKeepsTheInvariant
  exact fun _ _ => step_inv

/-- Settles O39: cell 2 of a full buffer is listed, and by I-e its byte declares more than 256 bytes in all. -/
theorem fullBufferDeclares254Or255 : Obligations.FullBufferDeclares254Or255 := by
  unfold Obligations.FullBufferDeclares254Or255
  intro s hs hfill
  have hacc : s.acc = true := by
    by_contra hidle
    have := hs.idle_iff.mp (by simpa using hidle)
    omega
  obtain ⟨n, hn⟩ := Option.isSome_iff_exists.mp ((Memory.read_isSome_of_cells hs.cells 2).mpr (by omega))
  have hlong : s.fill < n.toNat + Config.hdr :=
    hs.incomplete hacc (by simp [Config.hdr, hfill]) _ (by simp [State.expectedLength, Config.offLen, hn])
  rw [hfill, Config.hdr] at hlong
  exact ⟨n, hn, by bv_omega⟩

/-- Settles O40: a step keeps the buffer, empties it, starts it afresh, or writes one cell in range. -/
theorem stepKeepsTheBufferCanonical : Obligations.StepKeepsTheBufferCanonical := by
  unfold Obligations.StepKeepsTheBufferCanonical
  intro s t hs h
  rcases step_next h with ⟨_, rfl⟩ | ⟨_, _, rfl⟩ | ⟨b, _, i, _, hi, he⟩
  · exact hs
  · exact State.reset_buf_wf
  · exact exec_selected_wf (s := s.takeInput) hs hi he

/-- Settles O42, by what each operation leaves in `ACC`. -/
theorem accChangesOnlyAtFrameBoundaries : Obligations.AccChangesOnlyAtFrameBoundaries := by
  unfold Obligations.AccChangesOnlyAtFrameBoundaries
  intro i s t h
  rcases exec_acc h with ⟨rfl, hacc⟩ | ⟨hi, hacc⟩ | hacc
  · exact ⟨fun _ _ => rfl, fun _ hf => by simp [hacc] at hf⟩
  · exact ⟨fun _ ht => by simp [hacc] at ht, fun _ _ => hi⟩
  · exact ⟨fun hs ht => by simp [hacc, hs] at ht, fun hs ht => by simp [hacc, hs] at ht⟩

/-- Settles O43: the accumulator's owners are the Framer's operations, and `D.MONITOR` alone, also run by `F.COMPLETE`,
stores the snapshot. -/
theorem ownershipIsExclusive : Obligations.OwnershipIsExclusive := by
  unfold Obligations.OwnershipIsExclusive
  intro s t i h
  cases i with
  | fComplete b => exact execFComplete_snap h
  | fSof | fNoise | fAppend | fOverflow => exact exec_keeps_snapshot rfl h
  | dMonitor f => exact exec_keeps_accumulator rfl h
  | dMalformed | dUnknown | xState | xFreq | xCtrlErr | xDuty | xVbridge | xPrx | xVin =>
    obtain ⟨hbuf, hfill, hacc⟩ := exec_keeps_accumulator rfl h
    exact ⟨hbuf, hfill, hacc, exec_keeps_snapshot rfl h⟩

/-- Settles O44, by what a selected operation does to the snapshot. -/
theorem snapshotChangesOnlyOnUpdated : Obligations.SnapshotChangesOnlyOnUpdated := by
  unfold Obligations.SnapshotChangesOnlyOnUpdated
  intro s t b h
  obtain ⟨i, hi, he⟩ := step_given_next h
  rcases exec_selected_snap (s := { s with input := [] }) hi he with ⟨hst, hsnap⟩ | ⟨r, f, hst, hsnap, hev, hty, hlen⟩
  · exact ⟨fun _ => hsnap, fun r hr => absurd hr (hst r), fun hv => by simpa [State.snapValid, hsnap] using hv⟩
  · refine ⟨fun hno => absurd hst (hno r), fun q hq => ?_, fun _ => by simp [State.snapValid, hsnap]⟩
    cases hst.symm.trans hq
    exact ⟨hsnap, f, hev, hty, hlen⟩

/-- Settles O17: `F.SOF` leaves cell 0 alone listed, and a reset accumulator lists no cell. -/
theorem clearedCellsHoldNoValue : Obligations.ClearedCellsHoldNoValue := by
  unfold Obligations.ClearedCellsHoldNoValue
  intro s t b i
  refine ⟨fun h hi => ?_, fun h => ?_, fun h => ?_⟩
  · cases (execFSof_eq s).symm.trans h
    rw [afterSof_buf, Memory.read_cons, if_neg (by omega), Memory.read_nil]
  · obtain ⟨hbuf, _⟩ := execFComplete_accumulator h
    rw [hbuf, Memory.read_nil]
  · obtain ⟨_, rfl⟩ := execFOverflow_next (b := b) h
    rfl

/-- Settles O36: reset leaves the accumulator idle and nothing else behind. -/
theorem resetMeetsTheInvariant : Obligations.ResetMeetsTheInvariant := State.reset_inv

end Sys2Proof.Machine
end

section
/-! When an access to the buffer or to a frame stops (R34, R84, log entry 8), and what a little-endian read of a frame
gives (R105). -/

namespace Sys2Proof.Machine

/-! Copies of the buffer and the append at capacity. -/

/-- A copy that covers a cell without a value gives nothing (R14). -/
theorem Memory.readFrom_zero_eq_none {m : Memory} {i n : Nat} (hi : i < n) (h : m.read i = none) :
    m.readFrom 0 n = none := by
  by_contra hsome
  have hcell := Memory.readFrom_isSome.mp (Option.isSome_iff_ne_none.mpr hsome) i hi
  simp [h] at hcell

/-- An append to a full buffer stops (R84). -/
theorem execFAppend_fault {s : State} (b : Byte) (h : ¬ s.fill < Config.cap) :
    execFAppend b s = .fault .bufferOutOfRange := by
  rw [execFAppend, State.appendByte_fault b h, andThen_fault]

/-- A completion on a full buffer stops in its append (R84). -/
theorem execFComplete_fault {s : State} (b : Byte) (h : ¬ s.fill < Config.cap) :
    execFComplete b s = .fault .bufferOutOfRange := by
  rw [execFComplete, State.appendByte_fault b h, andThen_fault]

/-- A completion stops in its frame copy where a cell below `FILL` holds no value: the append writes another cell (R75). -/
theorem execFComplete_cellUnwritten {s : State} {i : Nat} (b : Byte) (hf : s.fill < Config.cap) (hi : i < s.fill)
    (h : s.buf.read i = none) : execFComplete b s = .fault .cellUnwritten := by
  have hcell : (s.buf.write s.fill b).read i = none := (Memory.read_write_other _ b (by omega)).trans h
  simp only [execFComplete, State.appendByte_next b hf, andThen_next,
    Memory.readFrom_zero_eq_none (show i < s.fill + 1 by omega) hcell]

/-- An overflow stops in its discard copy where a cell of the buffer holds no value (R76). -/
theorem execFOverflow_cellUnwritten {s : State} {i : Nat} (b : Byte) (hi : i < Config.cap) (h : s.buf.read i = none) :
    execFOverflow b s = .fault .cellUnwritten := by
  simp only [execFOverflow, Memory.readFrom_zero_eq_none hi h]

/-! Loads from a frame. -/

/-- What follows a load is part of its continuation. -/
theorem andThen_loadByte (f : Frame) (off : Nat) (k : Byte → Result) (l : State → Result) :
    andThen (loadByte f off k) l = loadByte f off fun b => andThen (k b) l := by
  cases h : f[off]? <;> simp [loadByte, h]

/-- Where a later load is out of range, an earlier one in front of it makes no difference. -/
theorem loadByte_const_fault (f : Frame) (off : Nat) :
    (loadByte f off fun _ => .fault .frameOutOfRange) = .fault .frameOutOfRange := by
  cases h : f[off]? <;> simp [loadByte, h]

/-- On a short frame the last load of the seven extractions, at offset 17, is out of range, and all before it lead there or
stop for the same reason (R34, R93). -/
theorem extractAll_fault {f : Frame} (h : f.length < Config.monMinLen) (s : State) :
    extractAll f s = .fault .frameOutOfRange := by
  have hlast (k : Byte → Result) : loadByte f (Config.offVin + 1) k = .fault .frameOutOfRange :=
    loadByte_none k (Nat.le_of_lt_succ h)
  simp only [extractAll, hlast, loadByte_const_fault, andThen_loadByte, execXState, execXFreq, execXCtrlErr, execXDuty,
    execXVbridge, execXPrx, andThen_next]

/-- `D.MONITOR` on a short frame stops before it stores anything (R34, R95). -/
theorem execDMonitor_fault {f : Frame} (h : f.length < Config.monMinLen) (s : State) :
    execDMonitor f s = .fault .frameOutOfRange := by
  rw [execDMonitor, extractAll_fault h, andThen_fault]

/-! Little-endian reads. -/

/-- `MemRead` of a run of bytes inside a frame is the sum of that run (R105). -/
theorem memRead_append (pre bs rest : Frame) :
    memRead (pre ++ (bs ++ rest)) pre.length bs.length = some (le bs) := by
  have hfits : pre.length + bs.length ≤ (pre ++ (bs ++ rest)).length := by simp only [List.length_append]; omega
  rw [memRead, if_pos hfits, List.drop_left, List.take_left]

/-- A two-byte field holds the whole sum of its bytes (R105). -/
theorem compose16_toNat_eq_le (lo hi : Byte) : (compose16 lo hi).toNat = le [lo, hi] :=
  (BitVec.toNat_ofNat ..).trans (Nat.mod_eq_of_lt (le_lt [lo, hi]))

/-- The four-byte field holds the whole sum of its bytes (R105). -/
theorem compose32_toNat_eq_le (b0 b1 b2 b3 : Byte) : (compose32 b0 b1 b2 b3).toNat = le [b0, b1, b2, b3] :=
  (BitVec.toNat_ofNat ..).trans (Nat.mod_eq_of_lt (le_lt [b0, b1, b2, b3]))

end Sys2Proof.Machine
end

section
/-! The statements about memory accesses (20_memory.md), settled. -/

namespace Sys2Proof.Machine

/-- Settles O24: each multi-byte field is composed of the run of bytes that the read at its offset sums. -/
theorem multiByteFieldsAreLittleEndianReads : Obligations.MultiByteFieldsAreLittleEndianReads := by
  unfold Obligations.MultiByteFieldsAreLittleEndianReads
  intro f s hlen
  obtain ⟨b0, b1, b2, b3, b4, b5, b6, b7, b8, b9, b10, b11, b12, b13, b14, b15, b16, b17, rest, rfl⟩ :=
    exists_eighteen hlen
  refine ⟨_, snapshotFrom b3 b4 b5 b6 b7 b8 b9 b10 b11 b12 b13 b16 b17, execDMonitor_eq .., rfl, ?_⟩
  simp only [snapshotFrom, compose16_toNat_eq_le, compose32_toNat_eq_le]
  exact ⟨memRead_append [b0, b1, b2, b3] [b4, b5, b6, b7] _,
    memRead_append [b0, b1, b2, b3, b4, b5, b6, b7, b8, b9] [b10, b11] _,
    memRead_append [b0, b1, b2, b3, b4, b5, b6, b7, b8, b9, b10, b11] [b12, b13] _,
    memRead_append [b0, b1, b2, b3, b4, b5, b6, b7, b8, b9, b10, b11, b12, b13, b14, b15] [b16, b17] _⟩

/-- Settles O18: the append stops at capacity, and a copy stops at a cell without a value. -/
theorem outOfRangeBufferAccessStops : Obligations.OutOfRangeBufferAccessStops := by
  unfold Obligations.OutOfRangeBufferAccessStops
  intro s b
  refine ⟨fun hfull => ?_, fun i hf hi h => execFComplete_cellUnwritten b hf hi h,
    fun i hi h => execFOverflow_cellUnwritten b hi h⟩
  have hcap : ¬ s.fill < Config.cap := Nat.not_lt.mpr hfull
  exact ⟨execFAppend_fault b hcap, execFComplete_fault b hcap⟩

/-- Settles O22: the load at offset 17 is out of range. -/
theorem monitorNeverReadsPastTheFrame : Obligations.MonitorNeverReadsPastTheFrame := by
  unfold Obligations.MonitorNeverReadsPastTheFrame
  exact fun _ s h => execDMonitor_fault h s

end Sys2Proof.Machine
end

section
/-! Selection, decoding and encoding, each said once: the conditions of the two dispatches (R56, R57), and the readers of the
three formats as the inverses of the encoder (R51, R58, R62). -/

namespace Sys2Proof.Machine

/-! The Framer's selection, one rule per row of R56. -/

theorem selectFramer_sentinel (v : FramerView) : selectFramer v Config.sentinel = .ok .fSof := by
  simp [selectFramer]

theorem selectFramer_noise {v : FramerView} {b : Byte} (hb : b ≠ Config.sentinel) (hacc : v.acc = false) :
    selectFramer v b = .ok (.fNoise b) := by
  simp [selectFramer, hb, hacc]

theorem selectFramer_append {v : FramerView} {b : Byte} (hb : b ≠ Config.sentinel) (hacc : v.acc = true)
    (hf : v.fill < Config.cap) (hc : completionTest (v.fill + 1) (v.lenByteAfter b) = some false) :
    selectFramer v b = .ok (.fAppend b) := by
  simp [selectFramer, hb, hacc, hf, hc]

theorem selectFramer_complete {v : FramerView} {b : Byte} (hb : b ≠ Config.sentinel) (hacc : v.acc = true)
    (hf : v.fill < Config.cap) (hc : completionTest (v.fill + 1) (v.lenByteAfter b) = some true) :
    selectFramer v b = .ok (.fComplete b) := by
  simp [selectFramer, hb, hacc, hf, hc]

theorem selectFramer_overflow {v : FramerView} {b : Byte} (hb : b ≠ Config.sentinel) (hacc : v.acc = true)
    (hf : Config.cap ≤ v.fill) : selectFramer v b = .ok (.fOverflow b) := by
  simp [selectFramer, hb, hacc, Nat.not_lt.mpr hf]

/-- In Idle nothing but the byte steers the selection (R56, R78). -/
theorem selectFramer_idle {v : FramerView} (b : Byte) (hacc : v.acc = false) :
    selectFramer v b = .ok (if b = Config.sentinel then .fSof else .fNoise b) := by
  split
  · next hb => exact hb ▸ selectFramer_sentinel v
  · next hb => exact selectFramer_noise hb hacc

/-- A byte selects exactly the well-formed operation that the accumulator admits and that it encodes (R50, R56). -/
theorem selectFramer_eq_ok {v : FramerView} {b : Byte} {i : Instr} :
    selectFramer v b = .ok i ↔ i.wf = true ∧ admits (.byte v) i = true ∧ encode i = [b] := by
  constructor
  · intro h
    rcases selectFramer_cases h with ⟨rfl, rfl⟩ | ⟨hb, hacc, rfl⟩ | ⟨hb, hacc, hf, hc, rfl⟩ | ⟨hb, hacc, hf, hc, rfl⟩ |
      ⟨hb, hacc, hf, rfl⟩ <;> simp [Instr.wf, admits, encode, *]
  · rintro ⟨hwf, hadm, henc⟩
    cases i with
    | fSof =>
      cases henc
      exact selectFramer_sentinel v
    | fNoise c | fAppend c | fComplete c | fOverflow c =>
      cases henc
      simp only [Instr.wf, bne_iff_ne, ne_eq] at hwf
      simp only [admits, Bool.and_eq_true, Bool.not_eq_true', decide_eq_true_eq, beq_iff_eq] at hadm
      simp only [selectFramer_noise, selectFramer_append, selectFramer_complete, selectFramer_overflow, hwf, hadm,
        ne_eq, not_false_eq_true]
    | dMonitor | dMalformed | dUnknown => cases hadm
    | xState | xFreq | xCtrlErr | xDuty | xVbridge | xPrx | xVin => simp [admits] at hadm

/-! The completion test on the fill length after the append (R74, R17). -/

theorem completionTest_short {k : Nat} (lenByte : Option Byte) (h : k < Config.hdr) :
    completionTest k lenByte = some false := by
  simp [completionTest, h]

theorem completionTest_declared {k : Nat} (n : Byte) (h : Config.hdr ≤ k) :
    completionTest k (some n) = some (decide (n.toNat + Config.hdr ≤ k)) := by
  simp [completionTest, Nat.not_lt.mpr h]

/-! The Decoder's selection, one rule per row of R57. -/

theorem selectDecoder_truncated {f : Frame} (h : f.length < 2) : selectDecoder f = .dMalformed f := by
  simp [selectDecoder, decoderCase, h]

theorem selectDecoder_unknown {f : Frame} (hlen : 2 ≤ f.length) (h : f[Config.offType]? ≠ some Config.monitorType) :
    selectDecoder f = .dUnknown f := by
  simp [selectDecoder, decoderCase, Nat.not_lt.mpr hlen, h]

/-- A frame that has a type byte has at least two bytes. -/
theorem two_le_length_of_type {f : Frame} {t : Byte} (h : f[Config.offType]? = some t) : 2 ≤ f.length :=
  (List.getElem?_eq_some_iff.mp h).1

theorem selectDecoder_malformed {f : Frame} (h : f[Config.offType]? = some Config.monitorType)
    (hlen : f.length < Config.monMinLen) : selectDecoder f = .dMalformed f := by
  simp [selectDecoder, decoderCase, Nat.not_lt.mpr (two_le_length_of_type h), h, hlen]

theorem selectDecoder_monitor {f : Frame} (h : f[Config.offType]? = some Config.monitorType)
    (hlen : Config.monMinLen ≤ f.length) : selectDecoder f = .dMonitor f := by
  simp [selectDecoder, decoderCase, Nat.not_lt.mpr (two_le_length_of_type h), h, Nat.not_lt.mpr hlen]

/-- What a frame selects meets the constraint of its row and keeps the frame as its operand (R57). -/
theorem selectDecoder_wf_encode (f : Frame) : (selectDecoder f).wf = true ∧ encode (selectDecoder f) = f := by
  by_cases h2 : f.length < 2
  · simp [selectDecoder_truncated h2, Instr.wf, encode, h2]
  by_cases hty : f[Config.offType]? = some Config.monitorType
  · by_cases hlen : f.length < Config.monMinLen
    · simp [selectDecoder_malformed hty hlen, Instr.wf, encode, hty, hlen]
    · simp [selectDecoder_monitor hty (Nat.not_lt.mp hlen), Instr.wf, encode, hty, Nat.not_lt.mp hlen]
  · simp [selectDecoder_unknown (Nat.not_lt.mp h2) hty, Instr.wf, encode, hty, Nat.not_lt.mp h2]

/-- The FRAME format admits what a frame selects exactly where the Framer can deliver the frame (R62). -/
theorem admits_frame_selectDecoder (f : Frame) : admits .frame (selectDecoder f) = deliverable f := by
  unfold selectDecoder
  cases decoderCase f <;> rfl

/-- A well-formed operation of the FRAME format is the one its frame selects (R57). -/
theorem selectDecoder_encode {i : Instr} (hwf : i.wf = true) (hadm : admits .frame i = true) :
    selectDecoder (encode i) = i := by
  cases i with
  | dMonitor f =>
    simp only [Instr.wf, Bool.and_eq_true, beq_iff_eq, decide_eq_true_eq] at hwf
    obtain ⟨hty, hlen⟩ := hwf
    exact selectDecoder_monitor hty hlen
  | dMalformed f =>
    simp only [Instr.wf, Bool.or_eq_true, Bool.and_eq_true, beq_iff_eq, decide_eq_true_eq] at hwf
    rcases hwf with h2 | ⟨hty, hlen⟩
    · exact selectDecoder_truncated h2
    · exact selectDecoder_malformed hty hlen
  | dUnknown f =>
    simp only [Instr.wf, Bool.and_eq_true, bne_iff_ne, decide_eq_true_eq] at hwf
    obtain ⟨hlen, hty⟩ := hwf
    exact selectDecoder_unknown hlen hty
  | fSof | fNoise | fAppend | fComplete | fOverflow => cases hadm
  | xState | xFreq | xCtrlErr | xDuty | xVbridge | xPrx | xVin => simp [admits] at hadm

/-! Deliverable frames and the reader of the FRAME format. -/

theorem deliverable_cons (h t n : Byte) (payload : List Byte) : deliverable (h :: t :: n :: payload) = true ↔
    h = Config.sentinel ∧ (∀ b ∈ t :: n :: payload, b ≠ Config.sentinel) ∧ payload.length = n.toNat ∧
      n.toNat + Config.hdr ≤ Config.cap := by
  simp only [deliverable, Config.offLen, Config.hdr, List.getElem?_cons_zero, List.getElem?_cons_succ, List.length_cons,
    List.drop_succ_cons, List.drop_zero, Option.any_some, Bool.and_eq_true, beq_iff_eq, Option.some.injEq,
    List.all_eq_true, bne_iff_ne, decide_eq_true_eq]
  constructor
  · rintro ⟨⟨⟨hh, hno⟩, hlen⟩, hcap⟩
    exact ⟨hh, hno, by omega, by omega⟩
  · rintro ⟨hh, hno, hlen, hcap⟩
    exact ⟨⟨⟨hh, hno⟩, by omega⟩, by omega⟩

/-- A deliverable frame has its three header bytes, the first the sentinel (R51, R79). -/
theorem exists_header {f : Frame} (hf : deliverable f = true) :
    ∃ (t n : Byte) (payload : List Byte), f = Config.sentinel :: t :: n :: payload := by
  match f with
  | [] | [_] | [_, _] => simp [deliverable, Config.offLen] at hf
  | h :: t :: n :: payload =>
    obtain ⟨rfl, _⟩ := (deliverable_cons h t n payload).mp hf
    exact ⟨t, n, payload, rfl⟩

/-- The reader takes exactly a deliverable frame off the front of the bytes (R51, R62). -/
theorem readFrame_eq_ok {bs f rest : List Byte} :
    readFrame bs = .ok (f, rest) ↔ deliverable f = true ∧ bs = f ++ rest := by
  constructor
  · match bs with
    | [] | [_] | [_, _] => simp [readFrame]
    | h :: t :: n :: tail =>
      simp only [readFrame]
      split
      · simp
      next hhead =>
      split
      · simp
      next hcap =>
      split
      · simp
      next hlen =>
      split
      · simp
      next hno =>
      rintro ⟨⟩
      refine ⟨(deliverable_cons ..).mpr ⟨not_not.mp hhead, ?_, ?_, Nat.not_lt.mp hcap⟩, ?_⟩
      · exact fun b hb heq => hno (List.any_eq_true.mpr ⟨b, hb, by simpa using heq⟩)
      · rw [List.length_take, Nat.min_eq_left (Nat.not_lt.mp hlen)]
      · simp
  · rintro ⟨hf, rfl⟩
    obtain ⟨t, n, payload, rfl⟩ := exists_header hf
    obtain ⟨_, hno, hlen, hcap⟩ := (deliverable_cons ..).mp hf
    have hclean : (t :: n :: payload).any (· == Config.sentinel) = false := by simpa using hno
    rw [← hlen] at hcap
    simp [readFrame, ← hlen, hclean, Nat.not_lt.mpr hcap]

/-! The three formats together. -/

/-- The reader of a field takes exactly the encoding of an extraction of that field (R58). -/
theorem readField_eq_ok {x : Field} {bs rest : List Byte} {i : Instr} :
    readField x bs = .ok (i, rest) ↔ admits (.field x) i = true ∧ bs = encode i ++ rest := by
  constructor
  · intro h
    unfold readField at h
    split at h <;> cases h
    all_goals exact ⟨rfl, rfl⟩
  · rintro ⟨hadm, rfl⟩
    cases i with
    | fSof | fNoise | fAppend | fComplete | fOverflow | dMonitor | dMalformed | dUnknown => cases hadm
    | xState | xFreq | xCtrlErr | xDuty | xVbridge | xPrx | xVin =>
      simp only [admits, beq_iff_eq, Ctx.field.injEq] at hadm
      subst hadm
      rfl

/-- Every operand value of an extraction is legal (R119). -/
theorem wf_of_admits_field {x : Field} {i : Instr} (hadm : admits (.field x) i = true) : i.wf = true := by
  cases i with
  | fSof | fNoise | fAppend | fComplete | fOverflow | dMonitor | dMalformed | dUnknown => cases hadm
  | xState | xFreq | xCtrlErr | xDuty | xVbridge | xPrx | xVin => rfl

/-- What the byte format admits is encoded in one byte (R50). -/
theorem encode_of_admits_byte {v : FramerView} {i : Instr} (hadm : admits (.byte v) i = true) :
    ∃ b, encode i = [b] := by
  cases i with
  | fSof | fNoise | fAppend | fComplete | fOverflow => exact ⟨_, rfl⟩
  | dMonitor | dMalformed | dUnknown => cases hadm
  | xState | xFreq | xCtrlErr | xDuty | xVbridge | xPrx | xVin => simp [admits] at hadm

theorem decode_byte_eq_ok {v : FramerView} {b : Byte} {bs rest : List Byte} {i : Instr} :
    decode (.byte v) (b :: bs) = .ok (i, rest) ↔ selectFramer v b = .ok i ∧ bs = rest := by
  cases h : selectFramer v b <;> simp [decode, h, Except.map]

theorem decode_frame_eq_ok {bs rest : List Byte} {i : Instr} :
    decode .frame bs = .ok (i, rest) ↔ ∃ f, readFrame bs = .ok (f, rest) ∧ selectDecoder f = i := by
  cases h : readFrame bs with
  | error => simp [decode, h, Except.map]
  | ok p =>
    obtain ⟨f, tail⟩ := p
    simp [decode, h, Except.map, and_comm]

/-- In every format decoding inverts encoding: it gives exactly the well-formed operations the format admits. -/
theorem decode_eq_ok {c : Ctx} {bs rest : List Byte} {i : Instr} :
    decode c bs = .ok (i, rest) ↔ i.wf = true ∧ admits c i = true ∧ bs = encode i ++ rest := by
  cases c with
  | byte v =>
    constructor
    · cases bs with
      | nil => exact nofun
      | cons b tail =>
        intro h
        obtain ⟨hsel, rfl⟩ := decode_byte_eq_ok.mp h
        obtain ⟨hwf, hadm, henc⟩ := selectFramer_eq_ok.mp hsel
        exact ⟨hwf, hadm, by rw [henc]; rfl⟩
    · rintro ⟨hwf, hadm, rfl⟩
      obtain ⟨b, henc⟩ := encode_of_admits_byte hadm
      rw [henc]
      exact decode_byte_eq_ok.mpr ⟨selectFramer_eq_ok.mpr ⟨hwf, hadm, henc⟩, rfl⟩
  | frame =>
    constructor
    · intro h
      obtain ⟨f, hread, rfl⟩ := decode_frame_eq_ok.mp h
      obtain ⟨hf, rfl⟩ := readFrame_eq_ok.mp hread
      obtain ⟨hwf, henc⟩ := selectDecoder_wf_encode f
      exact ⟨hwf, (admits_frame_selectDecoder f).trans hf, by rw [henc]⟩
    · rintro ⟨hwf, hadm, rfl⟩
      have hsel := selectDecoder_encode hwf hadm
      have hf : deliverable (encode i) = true := by rwa [← admits_frame_selectDecoder, hsel]
      exact decode_frame_eq_ok.mpr ⟨_, readFrame_eq_ok.mpr ⟨hf, rfl⟩, hsel⟩
  | field x =>
    exact readField_eq_ok.trans ⟨fun ⟨hadm, hbs⟩ => ⟨wf_of_admits_field hadm, hadm, hbs⟩, fun ⟨_, h⟩ => h⟩

end Sys2Proof.Machine
end

section
/-! How a deliverable frame is accumulated and completed, byte by byte (R51, R73 to R75, R81). -/

namespace Sys2Proof.Machine

/-! What a deliverable frame says of each of its bytes. -/

/-- After the header byte no byte of a deliverable frame is the sentinel (R79). -/
theorem ne_sentinel_of_deliverable {p r : List Byte} {b : Byte} (hf : deliverable (p ++ b :: r) = true) (hp : p ≠ []) :
    b ≠ Config.sentinel := by
  obtain ⟨a, p, rfl⟩ := List.exists_cons_of_ne_nil hp
  obtain ⟨t, n, payload, hform⟩ := exists_header hf
  rw [hform] at hf
  obtain ⟨_, hno, _⟩ := (deliverable_cons ..).mp hf
  obtain ⟨_, htail⟩ := List.cons.inj hform
  exact hno b (htail ▸ by simp)

/-- The bytes of a deliverable frame pass the completion test when all of them are there, and not before (R74, R82). -/
theorem completionTest_of_deliverable {q r : List Byte} (hf : deliverable (q ++ r) = true) :
    completionTest q.length q[Config.offLen]? = some r.isEmpty := by
  obtain ⟨t, n, payload, hform⟩ := exists_header hf
  obtain ⟨_, _, hlen, _⟩ := (deliverable_cons ..).mp (hform ▸ hf)
  have hsum : q.length + r.length = n.toNat + Config.hdr := by
    rw [← List.length_append, hform, ← hlen]
    rfl
  by_cases hq : q.length < Config.hdr
  · rw [completionTest_short _ hq, eq_comm, Option.some.injEq, List.isEmpty_eq_false_iff, ← List.length_pos_iff]
    omega
  · have hn : q[Config.offLen]? = some n :=
      (List.getElem?_append_left (Nat.not_lt.mp hq)).symm.trans (by rw [hform]; rfl)
    rw [hn, completionTest_declared n (Nat.not_lt.mp hq), Option.some.injEq, Bool.eq_iff_iff, decide_eq_true_eq,
      List.isEmpty_iff_length_eq_zero]
    omega

/-- A deliverable frame ends in a byte that is not its header (R51). -/
theorem exists_last {f : Frame} (hf : deliverable f = true) : ∃ mid z, f = Config.sentinel :: mid ++ [z] := by
  obtain ⟨t, n, payload, rfl⟩ := exists_header hf
  have hne : t :: n :: payload ≠ [] := List.cons_ne_nil _ _
  exact ⟨_, _, congrArg (List.cons Config.sentinel) (List.dropLast_append_getLast hne).symm⟩

/-! The accumulator that holds a beginning of a frame. -/

/-- The accumulator holds exactly these bytes of a frame in progress: `Accumulating(k)` of R78. -/
structure State.Accumulates (s : State) (p : List Byte) : Prop where
  buf : s.buf = Memory.ofBytes p 0
  fill : s.fill = p.length
  acc : s.acc = true

namespace State.Accumulates

variable {s : State} {p r : List Byte} {b : Byte}

/-- The pending input is no part of the accumulator. -/
theorem without_input (hs : s.Accumulates p) : ({ s with input := [] } : State).Accumulates p :=
  ⟨hs.buf, hs.fill, hs.acc⟩

theorem write_append (hs : s.Accumulates p) (b : Byte) : s.buf.write s.fill b = Memory.ofBytes (p ++ [b]) 0 := by
  rw [hs.buf, hs.fill, ← Memory.write_ofBytes, Nat.zero_add]

theorem lenByteAfter_view (hs : s.Accumulates p) (b : Byte) :
    s.view.lenByteAfter b = (p ++ [b])[Config.offLen]? := by
  rw [State.lenByteAfter_view, hs.write_append, ← Memory.read_ofBytes (p ++ [b]) 0, Nat.zero_add]

/-- The completion test that selects the next byte's operation (R74). -/
theorem completionTest_view (hs : s.Accumulates p) (hf : deliverable (p ++ b :: r) = true) :
    completionTest (s.view.fill + 1) (s.view.lenByteAfter b) = some r.isEmpty := by
  have hfill : s.view.fill + 1 = (p ++ [b]).length := by simp [State.view, hs.fill]
  rw [hfill, hs.lenByteAfter_view]
  exact completionTest_of_deliverable (by simpa using hf)

/-- There is room for the next byte of a deliverable frame (R81). -/
theorem fill_lt_cap (hs : s.Accumulates p) (hf : deliverable (p ++ b :: r) = true) : s.fill < Config.cap := by
  obtain ⟨_, hcap⟩ := Sys2Proof.Laws.EncodeFits.deliverable_length hf
  rw [List.length_append, List.length_cons] at hcap
  rw [hs.fill]
  omega

/-- A byte of a deliverable frame that is not its last is appended (R73). -/
theorem select_append (hs : s.Accumulates p) (hp : p ≠ []) (hf : deliverable (p ++ b :: r) = true) (hr : r ≠ []) :
    s.select b = .ok (.fAppend b) :=
  selectFramer_append (ne_sentinel_of_deliverable hf hp) hs.acc (hs.fill_lt_cap hf)
    ((hs.completionTest_view hf).trans (congrArg some (List.isEmpty_eq_false_iff.mpr hr)))

/-- The last byte of a deliverable frame completes it (R75). -/
theorem select_complete (hs : s.Accumulates p) (hp : p ≠ []) (hf : deliverable (p ++ [b]) = true) :
    s.select b = .ok (.fComplete b) :=
  selectFramer_complete (ne_sentinel_of_deliverable hf hp) hs.acc (hs.fill_lt_cap hf) (hs.completionTest_view hf)

/-- An append adds its byte to the beginning that is held (R73). -/
theorem append_byte (hs : s.Accumulates p) (b : Byte) : (afterAppend b s).Accumulates (p ++ [b]) where
  buf := hs.write_append b
  fill := by simp [hs.fill]
  acc := hs.acc

/-- The completion delivers the accumulated bytes and the last one (R75). -/
theorem execFComplete_eq_runDecoder (hs : s.Accumulates p) (hf : deliverable (p ++ [b]) = true) :
    execFComplete b s = runDecoder (p ++ [b]) (afterFrame (p ++ [b]) s) := by
  refine execFComplete_eq (hs.fill_lt_cap hf) ?_
  rw [hs.write_append]
  exact Memory.readFrom_eq_some.mpr
    ⟨by simp [hs.fill], fun i _ => (Memory.read_ofBytes (p ++ [b]) 0 i).symm⟩

end State.Accumulates

theorem afterSof_accumulates (s : State) : (afterSof s).Accumulates [Config.sentinel] := ⟨rfl, rfl, rfl⟩

/-! Runs over a frame. -/

/-- The bytes of a deliverable frame between its first and its last are accumulated, and nothing else happens (R73). -/
theorem runBytes_accumulates {bs : List Byte} {z : Byte} : ∀ {s : State} {p : List Byte}, s.Accumulates p → p ≠ [] →
    deliverable (p ++ (bs ++ [z])) = true → ∃ t es, runBytes s bs = some (t, es) ∧ t.Accumulates (p ++ bs) ∧
      t.snap = s.snap ∧ framesOf es = [] ∧ overflowsOf es = [] := by
  induction bs with
  | nil => exact fun {s p} hs _ _ => ⟨s, [], rfl, by simpa using hs, rfl, rfl, rfl⟩
  | cons b bs ih =>
    intro s p hs hp hf
    have hs' := hs.without_input
    obtain ⟨t, es, hrun, ht, hsnap, hframes, hover⟩ := ih (hs'.append_byte b) (by simp) (by simpa using hf)
    exact ⟨t, _, runBytes_cons (hs.select_append hp hf (by simp)) (execFAppend_eq b (hs'.fill_lt_cap hf)) hrun,
      by simpa using ht, hsnap, hframes, hover⟩

/-- A decode completes in every state. -/
theorem exists_runDecoder_next (f : Frame) (s : State) : ∃ t, runDecoder f s = .next t := by
  rcases runDecoder_cases f with h | h | ⟨_, _, h⟩ <;> exact ⟨_, h s⟩

/-- The run of a deliverable frame accumulates all its bytes but the last, and the last completes and decodes it (R51, R75,
R125). -/
theorem runBytes_deliverable (s : State) {f : Frame} (hf : deliverable f = true) : ∃ u t es z,
    runBytes s f = some (t, es ++ [{ op := .fComplete z, out := t.out }]) ∧ framesOf es = [] ∧ overflowsOf es = [] ∧
      u.snap = s.snap ∧ runDecoder f (afterFrame f u) = .next t := by
  obtain ⟨mid, z, rfl⟩ := exists_last hf
  have hne : Config.sentinel :: mid ≠ [] := List.cons_ne_nil _ _
  obtain ⟨u, es, hrun, hu, hsnap, hframes, hover⟩ :=
    runBytes_accumulates (afterSof_accumulates { s with input := [] }) (List.cons_ne_nil _ _) hf
  have hu' := hu.without_input
  obtain ⟨t, ht⟩ := exists_runDecoder_next (Config.sentinel :: mid ++ [z])
    (afterFrame (Config.sentinel :: mid ++ [z]) { u with input := [] })
  have hfirst : runBytes s (Config.sentinel :: mid) = some (u, { op := .fSof, out := StepOut.quiet } :: es) :=
    runBytes_cons (selectFramer_sentinel _) (execFSof_eq _) hrun
  have hlast : runBytes u [z] = some (t, [{ op := .fComplete z, out := t.out }]) :=
    runBytes_cons (p := (t, [])) (hu.select_complete hne hf) ((hu'.execFComplete_eq_runDecoder hf).trans ht) rfl
  refine ⟨{ u with input := [] }, t, { op := .fSof, out := StepOut.quiet } :: es, z, ?_, hframes, hover, hsnap, ht⟩
  rw [runBytes_append [z] hfirst, hlast]
  rfl

/-- A decode from another state with the same snapshot gives the same status and snapshot (R98). -/
theorem runDecoder_agree {f : Frame} {s t u : State} (h : runDecoder f s = .next t) (hsnap : u.snap = s.snap) :
    ∃ v, runDecoder f u = .next v ∧ v.out.status = t.out.status ∧ v.snap = t.snap := by
  rcases runDecoder_cases f with hd | hd | ⟨r, _, hd⟩
  · cases (hd s).symm.trans h
    exact ⟨_, hd u, rfl, hsnap⟩
  · cases (hd s).symm.trans h
    exact ⟨_, hd u, rfl, hsnap⟩
  · cases (hd s).symm.trans h
    exact ⟨_, hd u, rfl, rfl⟩

end Sys2Proof.Machine
end

section
/-! What the next step does with a placed table word (log entry 7), and the frame of a monitor message (R64). -/

namespace Sys2Proof.Machine

/-! Placed table words. -/

/-- An offered byte is taken by the next step, which runs the operation it selects (R125). -/
theorem step_offerByte {s : State} {b : Byte} {i : Instr} (hi : s.select b = .ok i) :
    step (s.offerByte b) = exec i s :=
  (step_byte rfl).trans (takeByte_ok hi)

/-- A state whose accumulator holds these bytes of a frame in progress, as staging leaves it (log entry 7). -/
def State.holding (p : List Byte) (s : State) : State := { s with buf := Memory.ofBytes p 0, fill := p.length, acc := true }

theorem State.holding_accumulates (p : List Byte) (s : State) : (s.holding p).Accumulates p := ⟨rfl, rfl, rfl⟩

theorem State.stageFrame_append (p : List Byte) (z : Byte) (s : State) :
    s.stageFrame (p ++ [z]) = (s.holding p).offerByte z := by
  simp [State.stageFrame, State.holding]

/-- The next step from a staged frame completes and decodes it (R75, R125, log entry 7). -/
theorem step_stageFrame (s : State) {f : Frame} (hf : deliverable f = true) : ∃ u,
    step (s.stageFrame f) = runDecoder f (afterFrame f u) ∧ u.snap = s.snap ∧ u.input = s.input := by
  obtain ⟨mid, z, rfl⟩ := exists_last hf
  have hu := s.holding_accumulates (Config.sentinel :: mid)
  refine ⟨s.holding (Config.sentinel :: mid), ?_, rfl, rfl⟩
  rw [State.stageFrame_append, step_offerByte (hu.select_complete (List.cons_ne_nil _ _) hf)]
  exact hu.execFComplete_eq_runDecoder hf

theorem decodeTableWord_eq_some {nbits w : Nat} {i : Instr} (h : decodeTableWord nbits w = some i) :
    ∃ rest, decode (tableCtx nbits) (tableBytes nbits w) = .ok (i, rest) := by
  unfold decodeTableWord at h
  split at h
  · next p hp =>
    cases h
    exact ⟨p.2, hp⟩
  · cases h

/-- A placed BYTE row is executed by the next step: in Idle, where the decoder reads it, or anywhere if it is the sentinel. -/
theorem step_withFetchWord_byte {nbits w : Nat} {i : Instr} (s : State) (hbits : nbits ≤ 8)
    (h : decodeTableWord nbits w = some i) : ∃ u t, step (s.withFetchWord nbits w) = exec i u ∧ exec i u = .next t ∧
      u.snap = s.snap ∧ u.input = s.input := by
  obtain ⟨rest, hdec⟩ := decodeTableWord_eq_some h
  rw [tableCtx, tableBytes, if_pos hbits, if_pos hbits] at hdec
  obtain ⟨hsel, _⟩ := decode_byte_eq_ok.mp hdec
  cases (selectFramer_idle _ rfl).symm.trans hsel
  simp only [State.withFetchWord, State.placeTableWord, if_pos hbits]
  split
  · next hb => exact ⟨s, _, step_offerByte (hb ▸ selectFramer_sentinel _), execFSof_eq s, rfl, rfl⟩
  · next hb => exact ⟨s.toIdle, _, step_offerByte (selectFramer_noise hb rfl), rfl, rfl, rfl⟩

/-- A placed FRAME row is delivered by the next step, which runs the Decoder operation that the decoder reads. -/
theorem step_withFetchWord_frame {nbits w : Nat} {i : Instr} (s : State) (hbits : ¬ nbits ≤ 8)
    (h : decodeTableWord nbits w = some i) : ∃ u t, step (s.withFetchWord nbits w) = exec i u ∧ exec i u = .next t ∧
      u.snap = s.snap ∧ u.input = s.input ∧ t.out.event = .frameReady (encode i) := by
  obtain ⟨rest, hdec⟩ := decodeTableWord_eq_some h
  rw [tableCtx, if_neg hbits] at hdec
  obtain ⟨f, hread, rfl⟩ := decode_frame_eq_ok.mp hdec
  obtain ⟨hf, _⟩ := readFrame_eq_ok.mp hread
  obtain ⟨u, hstep, hsnap, hinput⟩ := step_stageFrame s hf
  obtain ⟨t, ht⟩ := exists_runDecoder_next f (afterFrame f u)
  obtain ⟨hevent, _⟩ := runDecoder_keeps ht
  simp only [(selectDecoder_wf_encode f).2, ← runDecoder_eq_exec]
  refine ⟨afterFrame f u, t, ?_, ht, hsnap, hinput, hevent⟩
  simpa only [State.withFetchWord, State.placeTableWord, if_neg hbits, hread] using hstep

/-! The frame of a monitor message. -/

theorem le_le16 (v : Half) : le (le16 v) = v.toNat := by
  have := v.isLt
  simp only [le, le16, BitVec.toNat_ofNat]
  omega

theorem le_le32 (v : Word) : le (le32 v) = v.toNat := by
  have := v.isLt
  simp only [le, le32, BitVec.toNat_ofNat]
  omega

/-- The bytes that R64 writes for the seven values are the ones the snapshot of exactly those values is built from (R31). -/
theorem execDMonitor_monitorOf (st : Byte) (fq : Word) (ce du : Byte) (vb px : Half) (k14 k15 : Byte) (vn : Half)
    (s : State) : ∃ t, execDMonitor (monitorOf st fq ce du vb px k14 k15 vn) s = .next t ∧
      t.snap = some { opState := st, freq := fq, ctrlErr := ce.setWidth 16, dutyRaw := du, vbridgeRaw := vb,
                      prxRaw := px, vinRaw := vn } := by
  have h16 (v : Half) : BitVec.ofNat 16 (le (le16 v)) = v := by rw [le_le16, BitVec.ofNat_toNat, BitVec.setWidth_eq]
  have h32 : BitVec.ofNat 32 (le (le32 fq)) = fq := by rw [le_le32, BitVec.ofNat_toNat, BitVec.setWidth_eq]
  refine ⟨_, execDMonitor_eq .., congrArg some ?_⟩
  exact (Snapshot.mk.injEq ..).mpr ⟨rfl, h32, rfl, rfl, h16 vb, h16 px, h16 vn⟩

/-- The frame of a monitor message is just long enough to be decoded (R57, R64). -/
theorem selectDecoder_monitorOf (st : Byte) (fq : Word) (ce du : Byte) (vb px : Half) (k14 k15 : Byte) (vn : Half) :
    selectDecoder (monitorOf st fq ce du vb px k14 k15 vn) = .dMonitor (monitorOf st fq ce du vb px k14 k15 vn) :=
  selectDecoder_monitor rfl (Nat.le_refl 18)

/-- The frame of a monitor message is deliverable where the sentinel is not among its later bytes (R62, R64). -/
theorem deliverable_monitorOf {st : Byte} {fq : Word} {ce du : Byte} {vb px : Half} {k14 k15 : Byte} {vn : Half}
    (h : ∀ b ∈ (monitorOf st fq ce du vb px k14 k15 vn).drop 1, b ≠ Config.sentinel) :
    deliverable (monitorOf st fq ce du vb px k14 k15 vn) = true :=
  (deliverable_cons ..).mpr ⟨rfl, h, rfl, show 18 ≤ 256 by decide⟩

end Sys2Proof.Machine
end

section
/-! The statements about encoding (30_encoding.md), settled. -/

namespace Sys2Proof.Machine

/-- Settles O9: decoding inverts encoding in every format. -/
theorem decodeOfEncodeIsTheOperation : Obligations.DecodeOfEncodeIsTheOperation := by
  unfold Obligations.DecodeOfEncodeIsTheOperation
  exact fun _ _ _ hwf hadm => decode_eq_ok.mpr ⟨hwf, hadm, rfl⟩

/-- Settles O53: the frame accumulates up to its last byte, whose step delivers it and decodes it as from any state with the
same snapshot. -/
theorem deliverableFrameIsDelivered : Obligations.DeliverableFrameIsDelivered := by
  unfold Obligations.DeliverableFrameIsDelivered
  intro s f hf
  obtain ⟨u, t, es, z, hrun, hframes, hover, hsnap, ht⟩ := runBytes_deliverable s hf
  obtain ⟨hevent, hfill, hacc, hbuf, _⟩ := runDecoder_keeps ht
  have hevent : t.out.event = .frameReady f := hevent
  obtain ⟨v, hv, hstatus, hvsnap⟩ := runDecoder_agree (u := s) ht hsnap.symm
  refine ⟨_, { op := .fComplete z, out := t.out }, v, hrun, ?_, ?_, List.getLast?_concat, hevent, ?_,
    (runDecoder_eq_exec f s).symm.trans hv, hstatus.symm, hvsnap.symm⟩
  · simp [framesOf_append, hframes, framesOf, hevent]
  · simp [overflowsOf_append, hover, overflowsOf, hevent]
  · exact ⟨hacc, hfill, fun i _ => by rw [hbuf]; rfl⟩

/-- Settles O55: the message's frame is delivered, and the Decoder rebuilds the seven values from its bytes. -/
theorem monitorStreamRoundTrip : Obligations.MonitorStreamRoundTrip := by
  unfold Obligations.MonitorStreamRoundTrip
  intro s st fq ce du vb px k14 k15 vn hno
  obtain ⟨p, _, t, hrun, _, _, _, _, ⟨hacc, hfill, _⟩, ht, _, hsnap⟩ :=
    deliverableFrameIsDelivered s _ (deliverable_monitorOf hno)
  obtain ⟨v, hv, hvsnap⟩ := execDMonitor_monitorOf st fq ce du vb px k14 k15 vn s
  rw [selectDecoder_monitorOf] at ht
  cases hv.symm.trans ht
  rw [hvsnap] at hsnap
  exact ⟨p, hrun, hsnap, by simp [State.snapValid, hsnap], hfill, hacc⟩

/-- Settles O5: a byte is read in Idle as `withFetchWord` places it, and a staged frame is completed by the next step. -/
theorem placedTableWordRuns : Obligations.PlacedTableWordRuns := by
  unfold Obligations.PlacedTableWordRuns
  exact fun s _ _ _ h => ⟨fun hbits => step_withFetchWord_byte s hbits h, fun hbits => step_withFetchWord_frame s hbits h⟩

/-- Settles O6, row by row of R56. -/
theorem framerSelectionFollowsTheMap : Obligations.FramerSelectionFollowsTheMap := by
  unfold Obligations.FramerSelectionFollowsTheMap
  intro s b
  refine ⟨fun hb => hb ▸ selectFramer_sentinel s.view, fun hb hacc => selectFramer_noise hb hacc, fun hb hacc hf hshort => ?_,
    fun n hb hacc hf hlong hn hlt => ?_, fun n hb hacc hf hlong hn hle => ?_,
    fun hb hacc hfull => selectFramer_overflow hb hacc (Nat.le_of_eq hfull.symm)⟩
  · exact selectFramer_append hb hacc hf (completionTest_short _ hshort)
  · refine selectFramer_append hb hacc hf ?_
    rw [State.lenByteAfter_view, Config.offLen, hn]
    exact (completionTest_declared n hlong).trans (congrArg some (decide_eq_false (Nat.not_le.mpr hlt)))
  · refine selectFramer_complete hb hacc hf ?_
    rw [State.lenByteAfter_view, Config.offLen, hn]
    exact (completionTest_declared n hlong).trans (congrArg some (decide_eq_true hle))

/-- Settles O10: decoding gives only what is well formed, admitted and encoded by the bytes taken. -/
theorem decodedBytesAreTheEncoding : Obligations.DecodedBytesAreTheEncoding := by
  unfold Obligations.DecodedBytesAreTheEncoding
  exact fun _ _ _ _ => decode_eq_ok.mp

/-- Settles O23: with the first 18 bytes at hand, the loads of `D.MONITOR` and the field readers take the same bytes. -/
theorem monitorIsTheSevenExtractions : Obligations.MonitorIsTheSevenExtractions := by
  unfold Obligations.MonitorIsTheSevenExtractions
  intro f s hlen
  obtain ⟨b0, b1, b2, b3, b4, b5, b6, b7, b8, b9, b10, b11, b12, b13, b14, b15, b16, b17, rest, rfl⟩ :=
    exists_eighteen hlen
  exact ⟨_, _, _, _, _, _, _, rfl, rfl, rfl, rfl, rfl, rfl, rfl, rfl⟩

/-- Settles O8, row by row of R57. -/
theorem decoderSelectionFollowsTheMap : Obligations.DecoderSelectionFollowsTheMap := by
  unfold Obligations.DecoderSelectionFollowsTheMap
  refine fun f => ⟨selectDecoder_truncated, fun t ht hty => ?_, selectDecoder_malformed, selectDecoder_monitor⟩
  exact selectDecoder_unknown (two_le_length_of_type ht) fun h => hty (Option.some.inj (ht.symm.trans h))

/-- Settles O11 by running the decoder on the six words. -/
theorem writtenWordsDecode : Obligations.WrittenWordsDecode := by
  unfold Obligations.WrittenWordsDecode
  decide

end Sys2Proof.Machine
end

section
/-! What the invariant of R15 says of the next byte: the cells a copy needs hold values, the completion test has an answer,
and the operation the byte selects answers a next state (R77, R130, R143). -/

namespace Sys2Proof.Machine

/-! Copies of cells that hold values. -/

/-- A copy of cells that all hold values gives their bytes (R14). -/
theorem Memory.exists_readFrom {m : Memory} {n : Nat} (h : ∀ i, i < n → (m.read i).isSome) :
    ∃ f, m.readFrom 0 n = some f :=
  Option.isSome_iff_exists.mp (Memory.readFrom_isSome.mpr fun i hi => by simpa using h i hi)

theorem Memory.exists_readFrom_of_cells {m : Memory} {k n : Nat} (h : m.map Prod.fst = List.range n) (hk : k ≤ n) :
    ∃ f, m.readFrom 0 k = some f :=
  Memory.exists_readFrom fun i hi => (Memory.read_isSome_of_cells h i).mpr (by omega)

/-- Cells listed in order, without a gap, are the cells made from their bytes. -/
theorem Memory.eq_ofBytes {m : Memory} : ∀ {a n : Nat}, m.map Prod.fst = List.range' a n →
    m = Memory.ofBytes (m.map Prod.snd) a := by
  induction m with
  | nil => exact fun _ => rfl
  | cons c m ih =>
    intro a n h
    cases n with
    | zero => cases h
    | succ n =>
      rw [List.map_cons, List.range'_succ, List.cons.injEq] at h
      obtain ⟨hc, hm⟩ := h
      rw [List.map_cons, Memory.ofBytes, ← hc, ← ih (hc ▸ hm)]

/-- A cell that is not listed holds no value (R14). -/
theorem Memory.read_eq_none_of_cells {m : Memory} {n i : Nat} (h : m.map Prod.fst = List.range n) (hi : ¬ i < n) :
    m.read i = none := by
  simpa [hi] using Memory.read_isSome_of_cells h i

/-- Two buffers that hold values in exactly the cells below `n` are equal where those cells read alike (R14). -/
theorem Memory.ext_of_cells {m m' : Memory} {n : Nat} (h : m.map Prod.fst = List.range n)
    (h' : m'.map Prod.fst = List.range n) (hread : ∀ i, i < n → m.read i = m'.read i) : m = m' := by
  have hm := Memory.eq_ofBytes (h.trans List.range_eq_range')
  have hm' := Memory.eq_ofBytes (h'.trans List.range_eq_range')
  have hbytes : m.map Prod.snd = m'.map Prod.snd := List.ext_getElem? fun i => by
    rw [← Memory.read_ofBytes _ 0, ← Memory.read_ofBytes _ 0, ← hm, ← hm', Nat.zero_add]
    by_cases hi : i < n
    · exact hread i hi
    · rw [Memory.read_eq_none_of_cells h hi, Memory.read_eq_none_of_cells h' hi]
  exact hm.trans ((congrArg (Memory.ofBytes · 0) hbytes).trans hm'.symm)

/-! The completion test, as the two rows of R56 state it. -/

theorem completionTest_eq_false {k : Nat} {l : Option Byte} :
    completionTest k l = some false ↔ k < Config.hdr ∨ ∃ n, l = some n ∧ k < n.toNat + Config.hdr := by
  by_cases hk : k < Config.hdr
  · simp [completionTest_short l hk, hk]
  · cases l <;> simp [completionTest, hk]

theorem completionTest_eq_true {k : Nat} {l : Option Byte} :
    completionTest k l = some true ↔ Config.hdr ≤ k ∧ ∃ n, l = some n ∧ n.toNat + Config.hdr ≤ k := by
  by_cases hk : k < Config.hdr
  · simp [completionTest_short l hk, Nat.not_le.mpr hk]
  · cases l <;> simp [completionTest, hk, Nat.not_lt.mp hk]

/-! The invariant and the next byte. -/

namespace State.Inv

variable {s : State} {b : Byte}

/-- The invariant speaks of no pending input. -/
theorem without_input (hs : s.Inv) : ({ s with input := [] } : State).Inv := hs.of_same_core rfl rfl rfl rfl rfl

/-- After the append the length cell holds a value where the test needs it, so the test has an answer (R74). -/
theorem exists_completionTest (hs : s.Inv) (b : Byte) :
    ∃ c, completionTest (s.fill + 1) ((s.buf.write s.fill b).read Config.offLen) = some c := by
  by_cases hshort : s.fill + 1 < Config.hdr
  · exact ⟨_, completionTest_short _ hshort⟩
  · obtain ⟨n, hn⟩ := Option.isSome_iff_exists.mp
      ((Memory.read_isSome_of_cells (Memory.cells_write b hs.cells) Config.offLen).mpr (Nat.not_lt.mp hshort))
    rw [hn]
    exact ⟨_, completionTest_declared n (Nat.not_lt.mp hshort)⟩

/-- Every byte selects an operation (R77, R63). -/
theorem exists_select (hs : s.Inv) (b : Byte) : ∃ i, s.select b = .ok i := by
  by_cases hb : b = Config.sentinel
  · exact ⟨_, hb ▸ selectFramer_sentinel s.view⟩
  cases hacc : s.acc with
  | false => exact ⟨_, selectFramer_noise hb hacc⟩
  | true =>
    by_cases hf : s.fill < Config.cap
    · obtain ⟨c, hc⟩ := hs.exists_completionTest b
      rw [← State.lenByteAfter_view] at hc
      cases c with
      | false => exact ⟨_, selectFramer_append hb hacc hf hc⟩
      | true => exact ⟨_, selectFramer_complete hb hacc hf hc⟩
    · exact ⟨_, selectFramer_overflow hb hacc (Nat.not_lt.mp hf)⟩

/-- The operation a byte selects answers a next state (R130, R143). -/
theorem exists_exec_next (hs : s.Inv) {i : Instr} (hi : s.select b = .ok i) : ∃ t, exec i s = .next t := by
  rcases selectFramer_cases hi with ⟨_, rfl⟩ | ⟨_, _, rfl⟩ | ⟨_, _, hf, _, rfl⟩ | ⟨_, _, hf, _, rfl⟩ | ⟨_, _, hf, rfl⟩
  · exact ⟨_, execFSof_eq s⟩
  · exact ⟨_, rfl⟩
  · exact ⟨_, execFAppend_eq b hf⟩
  · obtain ⟨f, hr⟩ := Memory.exists_readFrom_of_cells (Memory.cells_write b hs.cells) (Nat.le_refl _)
    obtain ⟨t, ht⟩ := exists_runDecoder_next f (afterFrame f s)
    exact ⟨t, (execFComplete_eq hf hr).trans ht⟩
  · obtain ⟨d, hd⟩ := Memory.exists_readFrom_of_cells hs.cells hf
    exact ⟨_, execFOverflow_eq b hd⟩

/-- A frame in progress is shorter than its length cell declares, also where the next byte is that cell (I-e, R74). -/
theorem fill_lt_declared (hs : s.Inv) (hacc : s.acc = true) {n : Byte}
    (hn : (s.buf.write s.fill b).read Config.offLen = some n) : s.fill < n.toNat + Config.hdr := by
  by_cases hshort : s.fill < Config.hdr
  · omega
  · have hlen : Config.offLen ≠ s.fill := by rw [Config.hdr] at hshort; rw [Config.offLen]; omega
    rw [Memory.read_write_other _ _ hlen] at hn
    exact hs.incomplete hacc (Nat.not_lt.mp hshort) _ (by rw [State.expectedLength, hn]; rfl)

/-- The header cell after an append (I-c). -/
theorem read_write_header (hs : s.Inv) (hacc : s.acc = true) (b : Byte) :
    (s.buf.write s.fill b).read 0 = some Config.sentinel := by
  have hpos := hs.fill_pos hacc
  rw [Memory.read_write_other _ _ (by omega), hs.header hacc]

/-- Above the header no cell holds the sentinel after the append of another byte (I-d). -/
theorem read_write_ne_sentinel (hs : s.Inv) (hb : b ≠ Config.sentinel) {i : Nat} (hi : 1 ≤ i) :
    (s.buf.write s.fill b).read i ≠ some Config.sentinel := by
  by_cases hif : i = s.fill
  · simpa [hif] using hb
  · rw [Memory.read_write_other _ _ hif]
    exact hs.no_sentinel i hi

end State.Inv

/-- The step of a byte is the operation it selects (R125). -/
theorem step_given_eq {s : State} {b : Byte} {i : Instr} (hi : s.select b = .ok i) :
    step (s.given b) = exec i { s with input := [] } :=
  (step_given s b).trans (takeByte_ok (s := { s with input := [] }) hi)

/-- The accumulator is initial exactly where it is idle and empty (R14, R21). -/
theorem State.accumulatorInitial_iff {s : State} : s.accumulatorInitial ↔ s.acc = false ∧ s.fill = 0 :=
  ⟨fun ⟨hacc, hfill, _⟩ => ⟨hacc, hfill⟩, fun ⟨hacc, hfill⟩ => ⟨hacc, hfill, fun i hi => by omega⟩⟩

end Sys2Proof.Machine
end

section
/-! The frames the Framer delivers are the deliverable ones (R62, R79, R81, R82). -/

namespace Sys2Proof.Machine

/-- `deliverable`, by index. -/
theorem deliverable_iff {f : Frame} : deliverable f = true ↔
    f[0]? = some Config.sentinel ∧ (∀ i, 1 ≤ i → f[i]? ≠ some Config.sentinel) ∧
      (∃ n, f[Config.offLen]? = some n ∧ f.length = n.toNat + Config.hdr) ∧ f.length ≤ Config.cap := by
  have hno : (∀ b ∈ f.drop 1, b ≠ Config.sentinel) ↔ ∀ i, 1 ≤ i → f[i]? ≠ some Config.sentinel := by
    constructor
    · intro h i hi hs
      obtain ⟨j, rfl⟩ := Nat.exists_eq_add_of_le hi
      rw [← List.getElem?_drop] at hs
      exact h _ (List.mem_of_getElem? hs) rfl
    · rintro h b hb rfl
      obtain ⟨j, hj⟩ := List.getElem?_of_mem hb
      rw [List.getElem?_drop] at hj
      exact h _ (Nat.le_add_right 1 j) hj
  simp only [deliverable, Bool.and_eq_true, beq_iff_eq, List.all_eq_true, bne_iff_ne, decide_eq_true_eq,
    Option.any_eq_true, hno, and_assoc]

/-- A frame that the operation of a byte delivers is deliverable: the completion fires at the first byte at which the frame
is as long as its length cell declares (R74, R82). -/
theorem deliverable_of_frameReady {s t : State} {b : Byte} {i : Instr} {f : Frame} (hs : s.Inv) (hi : s.select b = .ok i)
    (h : exec i s = .next t) (hev : t.out.event = .frameReady f) : deliverable f = true := by
  rcases exec_selected hi h with ⟨_, _, rfl⟩ | ⟨_, _, _, rfl⟩ | ⟨_, _, _, _, _, rfl⟩ |
    ⟨g, hb, hacc, hf, hc, _, hr, hd⟩ | ⟨d, _, _, _, _, _, rfl⟩
  case inr.inr.inr.inl =>
    obtain ⟨hkept, _⟩ := runDecoder_keeps hd
    cases hkept.symm.trans hev
    obtain ⟨hlen, hcells⟩ := Memory.readFrom_eq_some.mp hr
    obtain ⟨hlong, n, hn, hle⟩ := completionTest_eq_true.mp hc
    have hlt := hs.fill_lt_declared hacc hn
    simp only [Nat.zero_add] at hcells
    refine deliverable_iff.mpr ⟨?_, fun i h1 => ?_, ⟨n, ?_, by omega⟩, by omega⟩
    · rw [hcells 0 (Nat.succ_pos _), hs.read_write_header hacc]
    · by_cases hin : i < s.fill + 1
      · rw [hcells i hin]
        exact hs.read_write_ne_sentinel hb h1
      · rw [List.getElem?_eq_none (by omega)]
        exact nofun
    · rw [hcells Config.offLen hlong, hn]
  all_goals cases hev

end Sys2Proof.Machine
end

section
/-! Two states with the same accumulator step alike (R77, R86, R98). -/

namespace Sys2Proof.Machine

/-- A decode gives the same outputs from two states with the same ones, whatever their snapshots (R98). -/
theorem runDecoder_out_agree {f : Frame} {s t u : State} (h : runDecoder f s = .next t) (hout : u.out = s.out) :
    ∃ v, runDecoder f u = .next v ∧ v.out = t.out := by
  rcases runDecoder_cases f with hd | hd | ⟨r, _, hd⟩ <;>
  · cases (hd s).symm.trans h
    exact ⟨_, hd u, by simp [hout]⟩

/-- Under the invariant, equality of accumulators as R14 defines it is equality of the three fields. -/
theorem State.sameAccumulator.buf_eq {s u : State} (h : s.sameAccumulator u) (hs : s.Inv) (hu : u.Inv) : s.buf = u.buf := by
  obtain ⟨_, hfill, hread⟩ := h
  exact Memory.ext_of_cells hs.cells (hfill ▸ hu.cells) hread

/-- A byte selects the same operation in states with the same accumulator, and it has the same outputs and leaves the same
accumulator (R77). -/
theorem exec_selected_agree {s u : State} (hs : s.Inv) (hu : u.Inv) (h : s.sameAccumulator u) (b : Byte) :
    ∃ i t v, s.select b = .ok i ∧ u.select b = .ok i ∧ exec i s = .next t ∧ exec i u = .next v ∧
      t.sameAccumulator v ∧ t.out = v.out := by
  obtain ⟨i, hi⟩ := hs.exists_select b
  obtain ⟨t, ht⟩ := hs.exists_exec_next hi
  have hbuf := h.buf_eq hs hu
  obtain ⟨hacc, hfill, _⟩ := h
  have hview : u.view = s.view := by simp [State.view, hbuf, hacc, hfill]
  have hui : u.select b = .ok i := (congrArg (selectFramer · b) hview).trans hi
  suffices hexec : ∃ v, exec i u = .next v ∧ t.sameAccumulator v ∧ t.out = v.out by
    obtain ⟨v, hv, hsame, hout⟩ := hexec
    exact ⟨i, t, v, hi, hui, ht, hv, hsame, hout⟩
  rcases exec_selected hi ht with ⟨_, rfl, rfl⟩ | ⟨_, _, rfl, rfl⟩ | ⟨_, _, hf, _, rfl, rfl⟩ |
    ⟨f, _, _, hf, _, rfl, hr, hd⟩ | ⟨d, _, _, _, rfl, hr, rfl⟩
  · exact ⟨_, execFSof_eq u, ⟨rfl, rfl, fun _ _ => rfl⟩, rfl⟩
  · exact ⟨_, rfl, ⟨hacc, hfill, fun i _ => congrArg (·.read i) hbuf⟩, rfl⟩
  · refine ⟨_, execFAppend_eq b (hfill ▸ hf), ⟨hacc, congrArg (· + 1) hfill, fun i _ => ?_⟩, rfl⟩
    rw [afterAppend_buf, afterAppend_buf, hbuf, hfill]
  · obtain ⟨v, hv, hout⟩ := runDecoder_out_agree (u := afterFrame f u) hd rfl
    obtain ⟨_, htfill, htacc, htbuf, _⟩ := runDecoder_keeps hd
    obtain ⟨_, hvfill, hvacc, hvbuf, _⟩ := runDecoder_keeps hv
    rw [hbuf, hfill] at hr
    exact ⟨v, (execFComplete_eq (hfill ▸ hf) hr).trans hv,
      ⟨htacc.trans hvacc.symm, htfill.trans hvfill.symm, fun i _ => by rw [htbuf, hvbuf]; rfl⟩, hout.symm⟩
  · exact ⟨_, execFOverflow_eq b (hbuf ▸ hr), ⟨rfl, rfl, fun _ _ => rfl⟩, rfl⟩

/-- Two runs of the same bytes from states with the same accumulator have the same trace and end in the same accumulator. -/
theorem runBytes_agree (bs : List Byte) : ∀ {s u : State}, s.Inv → u.Inv → s.sameAccumulator u → ∃ p q,
    runBytes s bs = some p ∧ runBytes u bs = some q ∧ p.2 = q.2 ∧ p.1.sameAccumulator q.1 := by
  induction bs with
  | nil => exact fun {s u} _ _ h => ⟨(s, []), (u, []), rfl, rfl, rfl, h⟩
  | cons b bs ih =>
    intro s u hs hu h
    obtain ⟨i, t, v, hsi, hui, ht, hv, hsame, hout⟩ := exec_selected_agree hs.without_input hu.without_input h b
    obtain ⟨p, q, hp, hq, htrace, hend⟩ :=
      ih (exec_selected_inv hs.without_input hsi ht) (exec_selected_inv hu.without_input hui hv) hsame
    exact ⟨_, _, runBytes_cons hsi ht hp, runBytes_cons hui hv hq, by simp [htrace, hout], hend⟩

end Sys2Proof.Machine
end

section
/-! Frames that declare more than the buffer holds, and noise (R72, R76, R87, R166). -/

namespace Sys2Proof.Machine

/-- A trace has one entry per byte (R65). -/
theorem runBytes_length {bs : List Byte} : ∀ {s : State} {p : State × List TraceEntry}, runBytes s bs = some p →
    p.2.length = bs.length := by
  induction bs with
  | nil => rintro s p ⟨⟩; rfl
  | cons b bs ih =>
    intro s p h
    simp only [runBytes] at h
    split at h
    · obtain ⟨q, hq, rfl⟩ := Option.map_eq_some_iff.mp h
      simp [ih hq]
    all_goals cases h

/-- The trace entry of a byte that is passed through (R72). -/
def noiseEntry (b : Byte) : TraceEntry :=
  { op := .fNoise b, out := { event := .none, status := .noFrame, diag := [.noise b] } }

/-- The trace entry of a byte at which the buffer overflows with these bytes (R76). -/
def overflowEntry (c : Byte) (d : List Byte) : TraceEntry :=
  { op := .fOverflow c, out := { event := .bufferOverflow d, status := .noFrame, diag := [.overflowReport d.length d] } }

theorem framesOf_noise (bs : List Byte) : framesOf (bs.map noiseEntry) = [] := by
  induction bs with
  | nil => rfl
  | cons b bs ih => exact ih

theorem overflowsOf_noise (bs : List Byte) : overflowsOf (bs.map noiseEntry) = [] := by
  induction bs with
  | nil => rfl
  | cons b bs ih => exact ih

/-- In Idle, bytes that are not the sentinel are passed through and leave the accumulator and the snapshot (R72). -/
theorem runBytes_noise {bs : List Byte} : ∀ {s : State}, s.acc = false → (∀ b ∈ bs, b ≠ Config.sentinel) → ∃ t,
    runBytes s bs = some (t, bs.map noiseEntry) ∧ t.snap = s.snap ∧ t.buf = s.buf ∧ t.fill = s.fill ∧ t.acc = false := by
  induction bs with
  | nil => exact fun {s} hacc _ => ⟨s, rfl, rfl, rfl, rfl, hacc⟩
  | cons b bs ih =>
    intro s hacc hno
    obtain ⟨hb, hbs⟩ := List.forall_mem_cons.mp hno
    obtain ⟨t, hrun, hkept⟩ := ih (s := ({ s with input := [] } : State).beginOut .none [.noise b]) hacc hbs
    exact ⟨t, runBytes_cons (selectFramer_noise hb hacc) rfl hrun, hkept⟩

/-- Bytes that are not the sentinel are accumulated as long as they fit and are fewer than the length byte declares (R73,
R74). -/
theorem runBytes_incomplete {bs : List Byte} : ∀ {s : State} {p : List Byte}, s.Accumulates p →
    (∀ b ∈ bs, b ≠ Config.sentinel) → (p ++ bs).length ≤ Config.cap →
    (∀ n, (p ++ bs)[Config.offLen]? = some n → (p ++ bs).length < n.toNat + Config.hdr) →
    ∃ t es, runBytes s bs = some (t, es) ∧ t.Accumulates (p ++ bs) ∧ t.snap = s.snap ∧ framesOf es = [] ∧
      overflowsOf es = [] := by
  induction bs with
  | nil => exact fun {s p} hs _ _ _ => ⟨s, [], rfl, by simpa using hs, rfl, rfl, rfl⟩
  | cons b bs ih =>
    intro s p hs hno hcap hinc
    obtain ⟨hb, hbs⟩ := List.forall_mem_cons.mp hno
    rw [List.append_cons] at hcap hinc
    have hs' := hs.without_input
    obtain ⟨t, es, hrun, ht, hsnap, hframes, hover⟩ := ih (hs'.append_byte b) hbs hcap hinc
    have hlen : (p ++ [b]).length = s.fill + 1 := by simp [hs.fill]
    have hle : (p ++ [b]).length ≤ (p ++ [b] ++ bs).length := by simp
    have hf : s.fill < Config.cap := by omega
    have hc : completionTest (s.fill + 1) ((p ++ [b])[Config.offLen]?) = some false := by
      rw [← hlen, completionTest_eq_false, or_iff_not_imp_left, Nat.not_lt]
      intro hlong
      have hn := List.getElem?_eq_getElem (show Config.offLen < (p ++ [b]).length from hlong)
      exact ⟨_, hn, Nat.lt_of_le_of_lt hle (hinc _ ((List.getElem?_append_left hlong).trans hn))⟩
    exact ⟨t, _, runBytes_cons (selectFramer_append hb hs.acc hf (hs.lenByteAfter_view b ▸ hc)) (execFAppend_eq b hf) hrun,
      by rwa [List.append_cons], hsnap, hframes, hover⟩

/-- After a header that declares 254 or 255 bytes, bytes that are not the sentinel fill the buffer without an event (R87). -/
theorem runBytes_oversized (s : State) {ty n : Byte} {bs : List Byte} (hty : ty ≠ Config.sentinel) (hn : n = 254 ∨ n = 255)
    (hno : ∀ b ∈ bs, b ≠ Config.sentinel) (hlen : bs.length ≤ 253) : ∃ t es,
    runBytes s (Config.sentinel :: ty :: n :: bs) = some (t, es) ∧ t.Accumulates (Config.sentinel :: ty :: n :: bs) ∧
      t.snap = s.snap ∧ framesOf es = [] ∧ overflowsOf es = [] := by
  have hns : n ≠ Config.sentinel := by rcases hn with rfl | rfl <;> decide
  have h254 : 254 ≤ n.toNat := by rcases hn with rfl | rfl <;> decide
  have hbytes : ∀ b ∈ ty :: n :: bs, b ≠ Config.sentinel :=
    List.forall_mem_cons.mpr ⟨hty, List.forall_mem_cons.mpr ⟨hns, hno⟩⟩
  obtain ⟨t, es, hrun, hacc, hsnap, hframes, hover⟩ := runBytes_incomplete
    (afterSof_accumulates { s with input := [] }) hbytes (by simp [Config.cap]; omega) (by
      rintro m ⟨⟩
      simp only [List.cons_append, List.nil_append, List.length_cons, Config.hdr]
      omega)
  exact ⟨t, _, runBytes_cons (selectFramer_sentinel _) (execFSof_eq _) hrun, hacc, hsnap, hframes, hover⟩

/-- A full buffer overflows on the next byte that is not the sentinel, and what follows is noise (R76, R87). -/
theorem runBytes_overflow {s : State} {p bs : List Byte} {c : Byte} (hs : s.Accumulates p) (hfull : p.length = Config.cap)
    (hc : c ≠ Config.sentinel) (hno : ∀ b ∈ bs, b ≠ Config.sentinel) : ∃ t,
    runBytes s (c :: bs) = some (t, overflowEntry c p :: bs.map noiseEntry) ∧ t.snap = s.snap ∧ t.accumulatorInitial := by
  have hcopy : s.buf.readFrom 0 Config.cap = some p := by
    rw [hs.buf]
    exact Memory.readFrom_eq_some.mpr ⟨hfull, fun i _ => (Memory.read_ofBytes p 0 i).symm⟩
  have hsel : s.select c = .ok (.fOverflow c) :=
    selectFramer_overflow hc hs.acc (Nat.le_of_eq (hfull.symm.trans hs.fill.symm))
  obtain ⟨t, hrun, hsnap, _, hfill, hacc⟩ := runBytes_noise (s := ({ s with input := [] } : State).toIdle.beginOut
    (.bufferOverflow p) [.overflowReport p.length p]) rfl hno
  exact ⟨t, runBytes_cons hsel (execFOverflow_eq c hcopy) hrun, hsnap, State.accumulatorInitial_iff.mpr ⟨hacc, hfill⟩⟩

end Sys2Proof.Machine
end

section
/-! The statements about the Framer (40_framer.md), settled. -/

namespace Sys2Proof.Machine

/-- Settles O47: a delivered frame is deliverable. -/
theorem deliveredFramesAreWellFormed : Obligations.DeliveredFramesAreWellFormed := by
  unfold Obligations.DeliveredFramesAreWellFormed
  intro s t b f hs h hev
  obtain ⟨i, hi, he⟩ := step_given_next h
  obtain ⟨hhead, hno, ⟨n, hn, hlen⟩, hcap⟩ := deliverable_iff.mp (deliverable_of_frameReady hs.without_input hi he hev)
  rw [Config.hdr] at hlen
  rw [Config.cap] at hcap
  refine ⟨hhead, hno, by omega, hcap, n, hn, hlen, ?_, by omega⟩
  rintro rfl
  exact hno Config.offLen (by decide) hn

/-- Settles O51: the sentinel leaves the same accumulator whatever came before, and the rest of the trace follows from it. -/
theorem sentinelForgetsHistory : Obligations.SentinelForgetsHistory := by
  unfold Obligations.SentinelForgetsHistory
  intro s u rest hs hu
  obtain ⟨p, q, hp, hq, htrace, hend⟩ := runBytes_agree rest (afterSof_inv hs.without_input)
    (afterSof_inv hu.without_input) ⟨rfl, rfl, fun _ _ => rfl⟩
  exact ⟨_, _, runBytes_cons (selectFramer_sentinel _) (execFSof_eq _) hp,
    runBytes_cons (selectFramer_sentinel _) (execFSof_eq _) hq, by simp [htrace, afterSof], hend⟩

/-- Settles O57: up to 253 bytes after the header are accumulated; the 254th overflows, and the rest is noise. -/
theorem oversizedFrameOverflowsExactlyOnce : Obligations.OversizedFrameOverflowsExactlyOnce := by
  unfold Obligations.OversizedFrameOverflowsExactlyOnce
  intro s ty n bs hty hn hno
  obtain ⟨u, es, hrun, hu, hsnap, hframes, hover⟩ := runBytes_oversized s (bs := bs.take 253) hty hn
    (fun b hb => hno b (List.mem_of_mem_take hb)) (List.length_take_le ..)
  by_cases hlen : bs.length ≤ 253
  · rw [List.take_of_length_le hlen] at hrun hu
    exact ⟨(u, es), hrun, hframes, hsnap, fun _ => ⟨hover, hu.fill, hu.acc⟩, fun h => absurd hlen (Nat.not_le.mpr h)⟩
  · have hlt : 253 < bs.length := Nat.not_le.mp hlen
    obtain ⟨c, rest, hdrop⟩ : ∃ c rest, bs.drop 253 = c :: rest := ⟨_, _, List.drop_eq_getElem_cons hlt⟩
    have hbs : bs.take 253 ++ c :: rest = bs := hdrop ▸ List.take_append_drop 253 bs
    have hrest : bs.drop 254 = rest := by rw [← List.tail_drop, hdrop, List.tail_cons]
    obtain ⟨hc, htail⟩ := List.forall_mem_cons.mp fun b hb => hno b (List.mem_of_mem_drop (hdrop ▸ hb))
    have hfull : (Config.sentinel :: ty :: n :: bs.take 253).length = Config.cap := by simp [Config.cap]; omega
    obtain ⟨t, hrun', hsnap', hinit⟩ := runBytes_overflow hu hfull hc htail
    have hall := runBytes_append (c :: rest) hrun
    rw [hrun', List.cons_append, List.cons_append, List.cons_append, hbs] at hall
    have hes : es.length = 256 := (runBytes_length hrun).trans hfull
    refine ⟨_, hall, ?_, hsnap'.trans hsnap, fun h => absurd h hlen, fun _ => ⟨?_, hinit, ?_⟩⟩
    · simp [framesOf_append, hframes, framesOf, overflowEntry, framesOf_noise]
    · simp [overflowsOf_append, hover, overflowsOf, overflowEntry, overflowsOf_noise, Config.sentinel]
    · rw [show 257 = es.length + 1 by omega, List.drop_length_add_append, List.drop_succ_cons, List.drop_zero, hrest,
        List.map_map]
      rfl

/-- Settles O7: the selected operation is well formed and encoded by the byte that selects it. -/
theorem everyByteSelectsAnOperation : Obligations.EveryByteSelectsAnOperation := by
  unfold Obligations.EveryByteSelectsAnOperation
  intro s b hs
  obtain ⟨i, hi⟩ := hs.exists_select b
  obtain ⟨hwf, _, henc⟩ := selectFramer_eq_ok.mp hi
  exact ⟨i, hi, hwf, henc⟩

/-- Settles O15: the append fills the last cell the frame copy needs, and a decode completes in every state. -/
theorem completeDeliversAndDecodesTheFrame : Obligations.CompleteDeliversAndDecodesTheFrame := by
  unfold Obligations.CompleteDeliversAndDecodesTheFrame
  intro s b hf hcells
  obtain ⟨f, hr⟩ := Memory.exists_readFrom (m := s.buf.write s.fill b) (n := s.fill + 1) fun i hi => by
    by_cases hif : i = s.fill
    · simp [hif]
    · rw [Memory.read_write_other _ _ hif]
      exact hcells i (by omega)
  obtain ⟨hlen, hbytes⟩ := Memory.readFrom_eq_some.mp hr
  simp only [Nat.zero_add] at hbytes
  obtain ⟨t, ht⟩ := exists_runDecoder_next f (afterFrame f s)
  obtain ⟨hevent, hfill, hacc, _, hinput⟩ := runDecoder_keeps ht
  refine ⟨f, afterFrame f s, t, hlen, fun i hi => ?_, ?_, rfl, (execFComplete_eq hf hr).trans ht,
    (runDecoder_eq_exec f _).symm.trans ht, hfill, hacc, hevent, hinput⟩
  · rw [hbytes i (by omega), Memory.read_write_other _ _ (by omega)]
  · rw [hbytes _ (Nat.lt_succ_self _), Memory.read_write_same]

/-- Settles O16: the copy of the 256 cells is what is reported, and the input byte is not looked at. -/
theorem overflowReportsAndResets : Obligations.OverflowReportsAndResets := by
  unfold Obligations.OverflowReportsAndResets
  intro s b hcells
  obtain ⟨d, hd⟩ := Memory.exists_readFrom (n := Config.cap) hcells
  obtain ⟨hlen, hbytes⟩ := Memory.readFrom_eq_some.mp hd
  refine ⟨d, _, hlen, fun i hi => by simpa using hbytes i hi, execFOverflow_eq b hd, rfl, rfl, ?_, rfl, rfl, rfl, fun _ => rfl⟩
  rw [State.beginOut_out, hlen]
  rfl

/-- Settles O41: each row of R78 is the row of R56 that selected the operation. -/
theorem stepFollowsTheTransitionTable : Obligations.StepFollowsTheTransitionTable := by
  unfold Obligations.StepFollowsTheTransitionTable
  intro s b hs
  obtain ⟨i, hi⟩ := hs.exists_select b
  obtain ⟨t, ht⟩ := hs.without_input.exists_exec_next hi
  refine ⟨t, (step_given_eq hi).trans ht, ?_⟩
  rcases exec_selected (s := { s with input := [] }) hi ht with ⟨hb, _, rfl⟩ | ⟨hb, hacc, _, rfl⟩ |
    ⟨hb, hacc, hf, hc, _, rfl⟩ | ⟨f, hb, hacc, hf, hc, _, _, hd⟩ | ⟨d, hb, hacc, hf, _, _, rfl⟩
  · exact ⟨fun _ => ⟨rfl, rfl, rfl⟩, fun h => absurd hb h, fun h => absurd hb h, fun h => absurd hb h, fun h => absurd hb h⟩
  · have hidle : s.acc ≠ true := ne_true_of_eq_false hacc
    exact ⟨fun h => absurd h hb, fun _ _ => ⟨hacc, hs.idle_iff.mp hacc, rfl, rfl⟩, fun _ h => absurd h hidle,
      fun _ h => absurd h hidle, fun _ h => absurd h hidle⟩
  · refine ⟨fun h => absurd h hb, fun _ h => absurd h (ne_false_of_eq_true hacc), fun _ _ _ _ => ⟨hacc, rfl, rfl⟩,
      fun _ _ _ hdone => ?_, fun _ _ h => absurd h (Nat.ne_of_lt hf)⟩
    cases hc.symm.trans (completionTest_eq_true.mpr hdone)
  · obtain ⟨hevent, hfill, hidle, _⟩ := runDecoder_keeps hd
    refine ⟨fun h => absurd h hb, fun _ h => absurd h (ne_false_of_eq_true hacc), fun _ _ _ hshort => ?_,
      fun _ _ _ _ => ⟨hidle, hfill, f, hevent⟩, fun _ _ h => absurd h (Nat.ne_of_lt hf)⟩
    cases hc.symm.trans (completionTest_eq_false.mpr hshort)
  · exact ⟨fun h => absurd h hb, fun _ h => absurd h (ne_false_of_eq_true hacc),
      fun _ _ h => absurd h (Nat.not_lt.mpr hf), fun _ _ h => absurd h (Nat.not_lt.mpr hf),
      fun _ _ _ => ⟨rfl, rfl, d, rfl⟩⟩

/-- Settles O49: only a completion and an overflow have an event, and both reset the accumulator. -/
theorem accumulatorIsInitialAfterAnEvent : Obligations.AccumulatorIsInitialAfterAnEvent := by
  unfold Obligations.AccumulatorIsInitialAfterAnEvent
  intro s t b h hev
  obtain ⟨i, hi, he⟩ := step_given_next h
  rw [State.accumulatorInitial_iff]
  rcases exec_selected (s := { s with input := [] }) hi he with ⟨_, _, rfl⟩ | ⟨_, _, _, rfl⟩ | ⟨_, _, _, _, _, rfl⟩ |
    ⟨f, _, _, _, _, _, _, hd⟩ | ⟨d, _, _, _, _, _, rfl⟩
  · exact absurd rfl hev
  · exact absurd rfl hev
  · exact absurd rfl hev
  · obtain ⟨_, hfill, hacc, _⟩ := runDecoder_keeps hd
    exact ⟨hacc, hfill⟩
  · exact ⟨rfl, rfl⟩

/-- Settles O50: the step runs the operation that both states select. -/
theorem stepDependsOnTheAccumulatorAlone : Obligations.StepDependsOnTheAccumulatorAlone := by
  unfold Obligations.StepDependsOnTheAccumulatorAlone
  intro s u b hs hu h
  obtain ⟨i, t, v, hsi, hui, ht, hv, hsame, hout⟩ := exec_selected_agree hs.without_input hu.without_input h b
  exact ⟨t, v, (step_given_eq hsi).trans ht, (step_given_eq hui).trans hv, hsame, hout⟩

/-- Settles O56: the frame is deliverable and too short for `D.MONITOR`. -/
theorem zeroLengthFrameCompletesAtThreeBytes : Obligations.ZeroLengthFrameCompletesAtThreeBytes := by
  unfold Obligations.ZeroLengthFrameCompletesAtThreeBytes
  intro s ty hty
  have hf : deliverable [0x54, ty, 0x00] = true :=
    (deliverable_cons ..).mpr ⟨rfl, by simpa [Config.sentinel] using hty, rfl, by decide⟩
  obtain ⟨u, t, es, z, hrun, hframes, _, hsnap, ht⟩ := runBytes_deliverable s hf
  obtain ⟨hevent, _⟩ := runDecoder_keeps ht
  have hevent : t.out.event = .frameReady [0x54, ty, 0x00] := hevent
  refine ⟨_, hrun, by simp [framesOf_append, hframes, framesOf, hevent], ?_⟩
  rw [runDecoder_eq_exec] at ht
  by_cases hmon : ty = 0xB3
  · rw [selectDecoder_malformed (f := [0x54, ty, 0x00]) (congrArg some hmon) (show 3 < 18 by decide)] at ht
    cases ht
    exact ⟨hsnap, fun _ => rfl, fun h => absurd hmon h⟩
  · rw [selectDecoder_unknown (f := [0x54, ty, 0x00]) (show 2 ≤ 3 by decide) fun h => hmon (Option.some.inj h)] at ht
    cases ht
    exact ⟨hsnap, fun h => absurd h hmon, fun _ => rfl⟩

/-- Settles O2, by induction on the number of steps. -/
theorem coreHoldsItsStateWithoutInput : Obligations.CoreHoldsItsStateWithoutInput := by
  unfold Obligations.CoreHoldsItsStateWithoutInput
  intro s n h
  have hstep : Sys2Proof.core.step s = .next s := step_nil h
  induction n with
  | zero => rfl
  | succ n ih => simpa only [Host.Core.run, hstep] using ih

/-- Settles O12: the sentinel's step answers `afterSof`, whatever the state. -/
theorem sofStartsANewFrame : Obligations.SofStartsANewFrame := by
  unfold Obligations.SofStartsANewFrame
  exact fun s => ⟨selectFramer_sentinel s.view, _, execFSof_eq s, rfl, rfl, rfl, rfl, rfl, rfl, rfl⟩

/-- Settles O13: in Idle the byte is selected as noise, and its step begins the outputs and does nothing else. -/
theorem noisePassesThrough : Obligations.NoisePassesThrough := by
  unfold Obligations.NoisePassesThrough
  exact fun s b => ⟨fun hb hacc => selectFramer_noise hb hacc, s.beginOut .none [.noise b],
    rfl, rfl, rfl, rfl, fun _ => rfl, rfl, rfl, rfl⟩

/-- Settles O14: a store reads back in its own cell and in no other. -/
theorem appendStoresTheByteAtFill : Obligations.AppendStoresTheByteAtFill := by
  unfold Obligations.AppendStoresTheByteAtFill
  exact fun s b hf => ⟨_, execFAppend_eq b hf, Memory.read_write_same .., fun _ => Memory.read_write_other _ b, rfl, rfl, rfl,
    rfl, rfl, rfl⟩

end Sys2Proof.Machine
end

section
/-! The statements about the Decoder (41_decoder.md), settled. -/

namespace Sys2Proof.Machine

/-- Settles O26: whichever of its three outcomes a frame's decode has, it has it in every state. -/
theorem decodeIsStatelessAndAllOrNothing : Obligations.DecodeIsStatelessAndAllOrNothing := by
  unfold Obligations.DecodeIsStatelessAndAllOrNothing
  intro f
  simp only [← runDecoder_eq_exec]
  rcases runDecoder_cases f with hignored | hmalformed | ⟨r, _, hupdated⟩
  · exact ⟨.ignored, fun s => ⟨_, hignored s, rfl, nofun, fun _ => rfl, rfl, rfl, rfl⟩⟩
  · exact ⟨.malformed, fun s => ⟨_, hmalformed s, rfl, nofun, fun _ => rfl, rfl, rfl, rfl⟩⟩
  · refine ⟨.updated r, fun s => ⟨_, hupdated s, rfl, ?_, fun hne => absurd rfl (hne r), rfl, rfl, rfl⟩⟩
    rintro _ ⟨⟩
    rfl

/-- Settles O19: the selection is a row of R57, and `D.UNKNOWN` only sets the status. -/
theorem unknownTypeIsIgnored : Obligations.UnknownTypeIsIgnored := by
  unfold Obligations.UnknownTypeIsIgnored
  intro s f
  obtain ⟨_, hunknown, _⟩ := decoderSelectionFollowsTheMap f
  exact ⟨hunknown, s.setStatus .ignored, rfl, rfl, rfl, rfl, rfl, rfl, fun _ => rfl, rfl, rfl, rfl⟩

/-- Settles O20: the selection is a row of R57, and `D.MALFORMED` only reports the frame and sets the status. -/
theorem malformedFrameIsReported : Obligations.MalformedFrameIsReported := by
  unfold Obligations.MalformedFrameIsReported
  intro s f
  refine ⟨selectDecoder_malformed, (s.emit (.decodeError f)).setStatus .malformed, ?_, rfl, rfl, rfl, rfl, rfl,
    fun _ => rfl, rfl, rfl, rfl⟩
  exact congrArg Host.Outcome.next (State.reportError_malformed f s)

/-- Settles O21: the stored record is `snapshotFrom` of the bytes at the fixed offsets, whose composed fields are their
little-endian sums. -/
theorem monitorUpdatesTheSnapshot : Obligations.MonitorUpdatesTheSnapshot := by
  unfold Obligations.MonitorUpdatesTheSnapshot
  intro h n st q0 q1 q2 q3 ce du v0 v1 p0 p1 g0 g1 w0 w1 rest s
  exact ⟨_, snapshotFrom st q0 q1 q2 q3 ce du v0 v1 p0 p1 w0 w1, execDMonitor_eq .., rfl, rfl, rfl, rfl,
    compose32_toNat .., zext16_toNat ce, rfl, compose16_toNat .., compose16_toNat .., compose16_toNat ..,
    rfl, rfl, rfl, rfl, fun _ => rfl, rfl, rfl⟩

end Sys2Proof.Machine
end

section
/-! The rules about field extraction that the statements on fields need: which bytes the Decoder reads, the bytes a field is
read from, the bits of a little-endian sum, and the exact scaling (R45, R105, R106, R111). -/

namespace Sys2Proof.Machine

/-! The bytes that are read. -/

/-- A load depends on the byte at its offset alone (R45). -/
theorem loadByte_congr {f g : Frame} {off : Nat} (h : f[off]? = g[off]?) : loadByte f off = loadByte g off := by
  funext k
  rw [loadByte, h, loadByte]

/-- The seven extractions load from the offsets 3 to 13, 16 and 17 alone (R93, R116). -/
theorem extractAll_congr {f g : Frame} (h : ∀ i, 3 ≤ i → i < 18 → i ≠ 14 → i ≠ 15 → f[i]? = g[i]?) :
    extractAll f = extractAll g := by
  have hload {i : Nat} (h3 : 3 ≤ i) (h18 : i < 18) (h14 : i ≠ 14) (h15 : i ≠ 15) : loadByte f i = loadByte g i :=
    loadByte_congr (h i h3 h18 h14 h15)
  funext s
  simp (disch := decide) only [extractAll, hload]

/-- A frame from the offset of a known byte on. -/
theorem drop_eq_cons {f : Frame} {k : Nat} {b : Byte} (h : f[k]? = some b) : f.drop k = b :: f.drop (k + 1) := by
  obtain ⟨hk, rfl⟩ := List.getElem?_eq_some_iff.mp h
  exact List.drop_eq_getElem_cons hk

/-- A frame from the offset of two known bytes on. -/
theorem drop_eq_cons_cons {f : Frame} {k : Nat} {b c : Byte} (hb : f[k]? = some b) (hc : f[k + 1]? = some c) :
    f.drop k = b :: c :: f.drop (k + 2) := by
  rw [drop_eq_cons hb, drop_eq_cons hc]

/-- The extraction of a field is the operation of that field whose encoding stands at the field's offset (R58). -/
theorem fieldOf_eq_ok {x : Field} {f rest : Frame} {i : Instr} (hadm : admits (.field x) i = true)
    (h : f.drop x.offset = encode i ++ rest) : fieldOf x f = .ok i := by
  rw [fieldOf, readField_eq_ok.mpr ⟨hadm, h⟩]
  rfl

/-! The bits of a field. -/

/-- Bit `i` of a sum is bit `i mod 8` of its byte `i / 8` (R106): the first byte fills the low eight bits, and the sum of the
others stands above them. -/
theorem testBit_le {bs : List Byte} {i : Nat} (hi : i < 8 * bs.length) :
    ∃ b, bs[i / 8]? = some b ∧ (le bs).testBit i = b.getLsbD (i % 8) := by
  induction bs generalizing i with
  | nil => exact absurd hi (Nat.not_lt_zero i)
  | cons b rest ih =>
    have hbit : (le (b :: rest)).testBit i = if i < 8 then b.toNat.testBit i else (le rest).testBit (i - 8) := by
      rw [le, Nat.add_comm, Nat.testBit_two_pow_mul_add _ b.isLt]
    rw [hbit]
    split
    next hlow =>
      rw [Nat.div_eq_of_lt hlow, Nat.mod_eq_of_lt hlow]
      exact ⟨b, rfl, rfl⟩
    next hhigh =>
      obtain ⟨j, rfl⟩ := Nat.exists_eq_add_of_le' (Nat.not_lt.mp hhigh)
      rw [List.length_cons] at hi
      rw [Nat.add_sub_cancel, Nat.add_div_right j (by decide), Nat.add_mod_right]
      exact ih (by omega)

/-- When `MemRead` gives a value, and which (R105). -/
theorem memRead_eq_some {f : Frame} {off n v : Nat} :
    memRead f off n = some v ↔ off + n ≤ f.length ∧ le ((f.drop off).take n) = v := by
  rw [memRead, Option.ite_none_right_eq_some, Option.some.injEq]

/-- A widened byte has no bit above its own eight (R109). -/
theorem zext16_getLsbD {b : Byte} {i : Nat} (hi : 8 ≤ i) : (zext16 b).getLsbD i = false := by
  rw [zext16, BitVec.getLsbD_setWidth, BitVec.getLsbD_of_ge b i hi, Bool.and_false]

/-! The exact scaling. -/

/-- A scaled value times its divisor is the raw integer (R111). -/
theorem scaled_mul {d : Nat} (raw : Nat) (hd : d ≠ 0) : scaled raw d * (d : Rat) = (raw : Rat) :=
  div_mul_cancel₀ _ (Nat.cast_ne_zero.mpr hd)

/-- Equal scaled values have equal raw integers, as nothing is rounded (R111). -/
theorem scaled_inj {d : Nat} (hd : d ≠ 0) {m n : Nat} : scaled m d = scaled n d ↔ m = n := by
  refine ⟨fun h => ?_, fun h => h ▸ rfl⟩
  have hraw : (m : Rat) = (n : Rat) := by rw [← scaled_mul m hd, h, scaled_mul n hd]
  exact Nat.cast_injective hraw

/-- A raw integer read from two bytes is a thousand times its scaled value (R31, R111). -/
theorem scaled_compose16_mul (lo hi : Byte) :
    scaled (compose16 lo hi).toNat Config.milliDiv * 1000 = ((lo.toNat + 2 ^ 8 * hi.toNat : Nat) : Rat) := by
  rw [← compose16_toNat]
  exact scaled_mul (d := 1000) _ (by decide)

end Sys2Proof.Machine
end

section
/-! The statements about the fields (42_fields.md), settled. -/

namespace Sys2Proof.Machine

/-- Settles O25: the extractions load from the offsets at which the frames agree. -/
theorem undecodedBytesDoNotMatter : Obligations.UndecodedBytesDoNotMatter := by
  unfold Obligations.UndecodedBytesDoNotMatter
  intro f g s _ _ hagree
  show execDMonitor f s = execDMonitor g s
  rw [execDMonitor, extractAll_congr hagree, execDMonitor]

/-- Settles O34: a read is the sum of the bytes at its offset, so each of its bits is in one of them. -/
theorem fieldBitsComeFromTheirByte : Obligations.FieldBitsComeFromTheirByte := by
  unfold Obligations.FieldBitsComeFromTheirByte
  intro f off n v h
  obtain ⟨hfits, rfl⟩ := memRead_eq_some.mp h
  have hlen : ((f.drop off).take n).length = n := by
    rw [List.length_take, List.length_drop]
    omega
  have hlt := le_lt ((f.drop off).take n)
  rw [hlen] at hlt
  refine ⟨hlt, fun i hi => ?_⟩
  obtain ⟨b, hb, hbit⟩ := testBit_le (bs := (f.drop off).take n) (hlen.symm ▸ hi)
  rw [List.getElem?_take_of_lt (Nat.div_lt_of_lt_mul hi), List.getElem?_drop] at hb
  exact ⟨b, hb, hbit⟩

/-- Settles O35: scaling is injective, and a raw field is determined by its integer. -/
theorem scaledFieldsLoseNothing : Obligations.ScaledFieldsLoseNothing := by
  unfold Obligations.ScaledFieldsLoseNothing
  have hduty : Config.dutyDiv ≠ 0 := by decide
  have hmilli : Config.milliDiv ≠ 0 := by decide
  exact fun _ _ => ⟨(scaled_inj hduty).trans BitVec.toNat_inj, (scaled_inj hmilli).trans BitVec.toNat_inj,
    (scaled_inj hmilli).trans BitVec.toNat_inj, (scaled_inj hmilli).trans BitVec.toNat_inj⟩

/-- Settles O27: byte 3 is the encoding of `X.STATE`, which sets one field of the record. -/
theorem stateFieldIsTheByteVerbatim : Obligations.StateFieldIsTheByteVerbatim := by
  unfold Obligations.StateFieldIsTheByteVerbatim
  exact fun _ _ _ => ⟨fun h3 => fieldOf_eq_ok rfl (drop_eq_cons h3), _, rfl, rfl, rfl⟩

/-- Settles O28: bytes 4 to 7 are the encoding of `X.FREQ`, and the composed field is their sum. -/
theorem frequencyIsTheLittleEndianSum : Obligations.FrequencyIsTheLittleEndianSum := by
  unfold Obligations.FrequencyIsTheLittleEndianSum
  intro f b0 b1 b2 b3 s
  refine ⟨fun h4 h5 h6 h7 => ?_, _, _, rfl, rfl, compose32_toNat .., rfl⟩
  have hbytes : f.drop 4 = [b0, b1, b2, b3] ++ f.drop 8 := by
    rw [drop_eq_cons_cons h4 h5, drop_eq_cons_cons h6 h7]
    rfl
  exact fieldOf_eq_ok rfl hbytes

/-- Settles O29: byte 8 is the encoding of `X.CTRLERR`, which widens it. -/
theorem controlErrorIsZeroExtended : Obligations.ControlErrorIsZeroExtended := by
  unfold Obligations.ControlErrorIsZeroExtended
  exact fun _ b _ => ⟨fun h8 => fieldOf_eq_ok rfl (drop_eq_cons h8), _, _, rfl, rfl, zext16_toNat b,
    fun _ => zext16_getLsbD, rfl⟩

/-- Settles O30: byte 9 is the encoding of `X.DUTY`, and a hundred times the scaled value is the raw integer. -/
theorem dutyIsTheByteOverHundred : Obligations.DutyIsTheByteOverHundred := by
  unfold Obligations.DutyIsTheByteOverHundred
  intro f b s
  refine ⟨fun h9 => fieldOf_eq_ok rfl (drop_eq_cons h9), _, rfl, rfl, rfl, fun r hr => ?_⟩
  obtain rfl : b = r.dutyRaw := Option.some.inj hr
  exact scaled_mul (d := 100) _ (by decide)

/-- Settles O31: bytes 10 and 11 are the encoding of `X.VBRIDGE`. -/
theorem bridgeVoltageIsTheSumOverThousand : Obligations.BridgeVoltageIsTheSumOverThousand := by
  unfold Obligations.BridgeVoltageIsTheSumOverThousand
  intro f lo hi s
  refine ⟨fun h10 h11 => fieldOf_eq_ok rfl (drop_eq_cons_cons h10 h11), _, _, rfl, rfl, compose16_toNat .., rfl,
    fun r hr => ?_⟩
  rw [Snapshot.vbridge, hr, scaled_compose16_mul]

/-- Settles O32: bytes 12 and 13 are the encoding of `X.PRX`. -/
theorem receivedPowerIsTheSumOverThousand : Obligations.ReceivedPowerIsTheSumOverThousand := by
  unfold Obligations.ReceivedPowerIsTheSumOverThousand
  intro f lo hi s
  refine ⟨fun h12 h13 => fieldOf_eq_ok rfl (drop_eq_cons_cons h12 h13), _, _, rfl, rfl, compose16_toNat .., rfl,
    fun r hr => ?_⟩
  rw [Snapshot.prx, hr, scaled_compose16_mul]

/-- Settles O33: bytes 16 and 17 are the encoding of `X.VIN`. -/
theorem inputVoltageIsTheSumOverThousand : Obligations.InputVoltageIsTheSumOverThousand := by
  unfold Obligations.InputVoltageIsTheSumOverThousand
  intro f lo hi s
  refine ⟨fun h16 h17 => fieldOf_eq_ok rfl (drop_eq_cons_cons h16 h17), _, _, rfl, rfl, compose16_toNat .., rfl,
    fun r hr => ?_⟩
  rw [Snapshot.vin, hr, scaled_compose16_mul]

end Sys2Proof.Machine
end

section
/-! How a byte's step depends on the pending input and what it can output: the rules the statements on the whole step need
(R65, R126, R131). -/

namespace Sys2Proof.Machine

/-! The pending input. -/

/-- A step whose next input is a byte takes that input and runs the operation the byte selects (R125). -/
theorem step_byte_ok {s : State} {b : Byte} {i : Instr} {rest : List HostInput} (hin : s.input = .byte b :: rest)
    (hi : s.select b = .ok i) : step s = exec i s.takeInput :=
  (step_byte hin).trans (takeByte_ok ((State.takeInput_select s b).trans hi))

/-- A decode does not look at the pending input and leaves it in place. -/
theorem runDecoder_with_input {f : Frame} {s t : State} (l : List HostInput) (h : runDecoder f s = .next t) :
    runDecoder f { s with input := l } = .next { t with input := l } := by
  rcases runDecoder_cases f with hd | hd | ⟨r, _, hd⟩ <;>
  · cases (hd s).symm.trans h
    exact hd _

/-- The operation a byte selects does not look at the inputs still pending and leaves them in place (R125). -/
theorem exec_selected_with_input {s t : State} {b : Byte} {i : Instr} (l : List HostInput) (hi : s.select b = .ok i)
    (h : exec i s = .next t) : exec i { s with input := l } = .next { t with input := l } := by
  rcases exec_selected hi h with ⟨_, rfl, rfl⟩ | ⟨_, _, rfl, rfl⟩ | ⟨_, _, hf, _, rfl, rfl⟩ |
    ⟨f, _, _, hf, _, rfl, hr, hd⟩ | ⟨d, _, _, _, rfl, hr, rfl⟩
  · exact execFSof_eq _
  · rfl
  · exact execFAppend_eq (s := { s with input := l }) b hf
  · exact (execFComplete_eq (s := { s with input := l }) hf hr).trans (runDecoder_with_input l hd)
  · exact execFOverflow_eq (s := { s with input := l }) b hr

/-- A run that answers took its first byte's step, and the rest of it is the run of the bytes that follow (R65). -/
theorem runBytes_cons_eq_some {s : State} {b : Byte} {bs : List Byte} {p : State × List TraceEntry}
    (h : runBytes s (b :: bs) = some p) : ∃ i t q, s.select b = .ok i ∧ exec i { s with input := [] } = .next t ∧
      runBytes t bs = some q ∧ p = (q.1, { op := i, out := t.out } :: q.2) := by
  simp only [runBytes] at h
  split at h
  · next i t hi ht =>
    obtain ⟨q, hq, rfl⟩ := Option.map_eq_some_iff.mp h
    rw [step_given_eq hi] at ht
    exact ⟨i, t, q, hi, ht, hq, rfl⟩
  all_goals cases h

/-- The operations of a trace are encoded by the bytes of the run, one each (R56, R65). -/
theorem runBytes_encode {bs : List Byte} : ∀ {s : State} {p : State × List TraceEntry}, runBytes s bs = some p →
    (p.2.map fun e => encode e.op) = bs.map fun b => [b] := by
  induction bs with
  | nil => rintro s p ⟨⟩; rfl
  | cons b bs ih =>
    intro s p h
    obtain ⟨i, t, q, hi, _, hq, rfl⟩ := runBytes_cons_eq_some h
    obtain ⟨_, _, henc⟩ := selectFramer_eq_ok.mp hi
    rw [List.map_cons, List.map_cons, henc, ih hq]

/-- The machine with a byte list as its input goes through the states of the list's run: each step differs from the step of
the byte alone in the inputs still pending, and no operation looks at those (R131). -/
theorem core_run_givenAll {bs : List Byte} : ∀ {s : State} {p : State × List TraceEntry}, runBytes s bs = some p →
    Host.Core.run Sys2Proof.core bs.length (s.givenAll bs) = .next { p.1 with input := [] } := by
  induction bs with
  | nil => rintro s p ⟨⟩; rfl
  | cons b bs ih =>
    intro s p h
    obtain ⟨i, t, q, hi, ht, hq, rfl⟩ := runBytes_cons_eq_some h
    have hstep : Sys2Proof.core.step (s.givenAll (b :: bs)) = .next (t.givenAll bs) :=
      (step_byte_ok (s := s.givenAll (b :: bs)) rfl hi).trans
        (exec_selected_with_input (s := { s with input := [] }) (bs.map HostInput.byte) hi ht)
    simpa only [List.length_cons, Host.Core.run, hstep] using ih hq

/-! The outputs. -/

/-- What a decode adds to the outputs of its step: its status, and the report of a malformed frame (R90, R129). -/
theorem runDecoder_out {f : Frame} {s t : State} (h : runDecoder f s = .next t) :
    t.out = { s.out with status := .ignored } ∨
    t.out = { s.out with status := .malformed, diag := s.out.diag ++ [.decodeError f] } ∨
    ∃ r, t.out = { s.out with status := .updated r } := by
  rcases runDecoder_cases f with hd | hd | ⟨r, _, hd⟩ <;> cases (hd s).symm.trans h
  · exact .inl rfl
  · exact .inr (.inl rfl)
  · exact .inr (.inr ⟨r, rfl⟩)

end Sys2Proof.Machine
end

section
/-! The statements about the core's step (43_core_step.md), settled. -/

namespace Sys2Proof.Machine

/-- Settles O4, by induction on the bytes: a step of the machine on the whole list is the run's step of the byte alone. -/
theorem byteRunIsTheMachinesRun : Obligations.ByteRunIsTheMachinesRun := by
  unfold Obligations.ByteRunIsTheMachinesRun
  exact fun _ _ _ h => ⟨core_run_givenAll h, runBytes_length h, runBytes_encode h⟩

/-- Settles O38: waiting and reset always answer, and under the invariant a byte selects an operation that answers. -/
theorem stepNeverStops : Obligations.StepNeverStops := by
  unfold Obligations.StepNeverStops
  intro s hs
  cases hin : s.input with
  | nil => exact ⟨_, step_nil hin⟩
  | cons a rest =>
    cases a with
    | reset => exact ⟨_, step_reset hin⟩
    | byte b =>
      have htaken : s.takeInput.Inv := hs.of_same_core rfl rfl rfl rfl rfl
      obtain ⟨i, hi⟩ := hs.exists_select b
      obtain ⟨t, ht⟩ := htaken.exists_exec_next hi
      exact ⟨t, (step_byte_ok hin hi).trans ht⟩

/-- Settles O45, by what each operation a byte selects outputs; a completion's outputs are its Decoder's. -/
theorem stepOutputsAreOneOfTheListedCases : Obligations.StepOutputsAreOneOfTheListedCases := by
  unfold Obligations.StepOutputsAreOneOfTheListedCases
  intro s t b h
  obtain ⟨i, hi, he⟩ := step_given_next h
  rcases exec_selected (s := { s with input := [] }) hi he with ⟨_, _, rfl⟩ | ⟨hb, hacc, _, rfl⟩ | ⟨_, _, _, _, _, rfl⟩ |
    ⟨f, _, _, _, _, _, _, hd⟩ | ⟨d, _, _, _, _, hr, rfl⟩
  · exact .inl rfl
  · exact .inr (.inl ⟨rfl, hacc, hb⟩)
  · exact .inl rfl
  · rcases runDecoder_out hd with hout | hout | ⟨r, hout⟩
    · exact .inr (.inr (.inl ⟨f, hout⟩))
    · exact .inr (.inr (.inr (.inl ⟨f, hout⟩)))
    · exact .inr (.inr (.inr (.inr (.inl ⟨f, r, hout⟩))))
  · have hlen : d.length = 256 := (Memory.readFrom_eq_some.mp hr).1
    exact .inr (.inr (.inr (.inr (.inr ⟨d, hlen, by rw [State.beginOut_out, hlen]⟩))))

/-- Settles O52: the run and trace of noise, which leaves the core in Idle. -/
theorem noiseIsPassedThroughInOrder : Obligations.NoiseIsPassedThroughInOrder := by
  unfold Obligations.NoiseIsPassedThroughInOrder
  intro s bs hacc hno
  obtain ⟨t, hrun, hkept⟩ := runBytes_noise hacc hno
  exact ⟨_, hrun, rfl, hkept⟩

/-- Settles O1: what decodes from a byte is what the state selects, and the step runs that once the input is taken. -/
theorem byteStepRunsSelectedOperation : Obligations.ByteStepRunsSelectedOperation := by
  unfold Obligations.ByteStepRunsSelectedOperation
  intro s b rest i hin hdec
  obtain ⟨hi, _⟩ := decode_byte_eq_ok.mp hdec
  rw [step_byte_ok hin hi, State.takeInput, hin, List.tail_cons]

end Sys2Proof.Machine
end

section
/-! The statements about the exceptions (60_exceptions.md), settled, and what the status `Malformed` says of a decode. -/

namespace Sys2Proof.Machine

/-- A decode with the status `Malformed` selected `D.MALFORMED`: the frame has no type byte or is a monitor frame below the
minimum length, and all the decode did was to report it (R57, R95, R138). -/
theorem runDecoder_malformed {f : Frame} {s t : State} (h : runDecoder f s = .next t) (hst : t.out.status = .malformed) :
    (f.length < 2 ∨ f[Config.offType]? = some Config.monitorType ∧ f.length < Config.monMinLen) ∧
      t = (s.emit (.decodeError f)).setStatus .malformed := by
  rw [runDecoder_eq_exec] at h
  by_cases htrunc : f.length < 2
  · rw [selectDecoder_truncated htrunc] at h
    cases h
    exact ⟨.inl htrunc, rfl⟩
  by_cases hty : f[Config.offType]? = some Config.monitorType
  · by_cases hlen : f.length < Config.monMinLen
    · rw [selectDecoder_malformed hty hlen] at h
      cases h
      exact ⟨.inr ⟨hty, hlen⟩, rfl⟩
    · rw [selectDecoder_monitor hty (Nat.not_lt.mp hlen)] at h
      obtain ⟨r, _, hr⟩ := execDMonitor_next (Nat.not_lt.mp hlen)
      cases (hr s).symm.trans h
      cases hst
  · rw [selectDecoder_unknown (Nat.not_lt.mp htrunc) hty] at h
    cases h
    cases hst

/-- Settles O46: only a completion decodes, and a frame it delivers is too long to be malformed for want of a type byte. -/
theorem malformedOnlyForShortMonitorFrames : Obligations.MalformedOnlyForShortMonitorFrames := by
  unfold Obligations.MalformedOnlyForShortMonitorFrames
  intro s t b hs h hst
  obtain ⟨i, hi, he⟩ := step_given_next h
  rcases exec_selected (s := { s with input := [] }) hi he with ⟨_, _, rfl⟩ | ⟨_, _, _, rfl⟩ | ⟨_, _, _, _, _, rfl⟩ |
    ⟨f, _, _, _, _, _, _, hd⟩ | ⟨d, _, _, _, _, _, rfl⟩
  case inr.inr.inr.inl =>
    obtain ⟨hev, _⟩ := runDecoder_keeps hd
    obtain ⟨_, _, hthree, _⟩ := deliveredFramesAreWellFormed s t b f hs h hev
    obtain ⟨htrunc | ⟨hty, hshort⟩, rfl⟩ := runDecoder_malformed hd hst
    · omega
    · exact ⟨f, rfl, hty, hshort, rfl, rfl⟩
  all_goals cases hst

/-- Settles O48: only `F.OVERFLOW` reports an overflow, and the bytes it copies are the cells of a full buffer, of which the
invariant gives the header (I-c) and the length cell (I-f). -/
theorem overflowOnlyForOversizedFrames : Obligations.OverflowOnlyForOversizedFrames := by
  unfold Obligations.OverflowOnlyForOversizedFrames
  intro s t b d hs h hev
  obtain ⟨i, hi, he⟩ := step_given_next h
  rcases exec_selected (s := { s with input := [] }) hi he with ⟨_, _, rfl⟩ | ⟨_, _, _, rfl⟩ | ⟨_, _, _, _, _, rfl⟩ |
    ⟨f, _, _, _, _, _, _, hd⟩ | ⟨d', _, hacc, hfull, _, hr, rfl⟩
  case inr.inr.inr.inl =>
    obtain ⟨hframe, _⟩ := runDecoder_keeps hd
    cases hframe.symm.trans hev
  case inr.inr.inr.inr =>
    cases hev
    obtain ⟨hlen, hcells⟩ := Memory.readFrom_eq_some.mp hr
    simp only [Nat.zero_add] at hcells
    obtain ⟨n, hn, hdeclares⟩ := fullBufferDeclares254Or255 s hs (Nat.le_antisymm hs.fill_le hfull)
    refine ⟨hlen, (hcells 0 (by decide)).trans (hs.header hacc), ⟨n, (hcells 2 (by decide)).trans hn, hdeclares⟩,
      rfl, ?_, rfl⟩
    rw [State.beginOut_out, hlen]
    rfl
  all_goals cases hev

end Sys2Proof.Machine
end

section
/-! The statements about reset and hazards (70_reset_and_hazards.md), settled, and that a run from a state of the invariant
never stops. -/

namespace Sys2Proof.Machine

/-- From a state that meets the invariant a run of any bytes answers, and its end meets the invariant (R15, R130). -/
theorem State.Inv.exists_runBytes {bs : List Byte} : ∀ {s : State}, s.Inv → ∃ t es, runBytes s bs = some (t, es) ∧ t.Inv := by
  induction bs with
  | nil => exact fun {s} hs => ⟨s, [], rfl, hs⟩
  | cons b bs ih =>
    intro s hs
    obtain ⟨i, hi⟩ := hs.exists_select b
    obtain ⟨u, hu⟩ := hs.without_input.exists_exec_next hi
    obtain ⟨t, es, hrun, ht⟩ := ih (exec_selected_inv hs.without_input hi hu)
    exact ⟨t, _, runBytes_cons hi hu hrun, ht⟩

/-- Settles O54: the run of the bytes before the frame answers, and from whatever state it ends in the frame is delivered,
after all that was delivered before it. -/
theorem coreSynchronisesOnAnyStream : Obligations.CoreSynchronisesOnAnyStream := by
  unfold Obligations.CoreSynchronisesOnAnyStream
  intro s junk f hs hf
  obtain ⟨u, es, hjunk, _⟩ := hs.exists_runBytes (bs := junk)
  obtain ⟨p, _, _, hp, hframes, _, _, _, hinit, _⟩ := deliverableFrameIsDelivered u f hf
  have hrun : runBytes s (junk ++ f) = some (p.1, es ++ p.2) := by rw [runBytes_append f hjunk, hp, Option.map_some]
  refine ⟨_, hrun, ?_, hinit⟩
  rw [framesOf_append, hframes, List.getLast?_concat]

/-- Settles O3: the reset operation leaves nothing of the state before it but the inputs that follow it. -/
theorem resetGivesInitialStateSilently : Obligations.ResetGivesInitialStateSilently := by
  unfold Obligations.ResetGivesInitialStateSilently
  intro s rest hin
  have hrest : s.takeInput.input = rest := congrArg List.tail hin
  have hstep : step s = .next { State.reset with input := rest } := by rw [step_reset hin, State.applyReset, hrest]
  exact ⟨_, hstep, rfl, rfl, Memory.read_nil, rfl, rfl, rfl, rfl, rfl, rfl, rfl⟩

end Sys2Proof.Machine
end
